-- ==== Sys2Proof/Word.lean ====
section
/-! DEFINITION. The word types of HBPE. Widths: bytes and the LEN field are 8 bits (spec/10_state.md R24, R28), a command
record is CW = 20 + L_MAX bits (30_encoding.md R60) and a code is L_MAX bits. L_MAX is a build parameter between 1 and 255
(00_scope.md R8); the types hold the widest build, and a narrower build's values are those below 2^CW and 2^L_MAX
(notes/assumptions/7.md). -/

namespace Sys2Proof

/-- An output byte, a symbol (byte value, the table address) or a code length (R24, R28, R64). -/
abbrev Byte := BitVec 8

/-- The CODE field of a record or of a table entry, right-aligned (R24, R60, R63). -/
abbrev CodeWord := BitVec 255

/-- A command record, bit 0 least significant (R60); 275 = 20 + 255 bits, the widest build. -/
abbrev Record := BitVec 275

end Sys2Proof
end

