-- ==== Sys2Proof/Config.lean ====
section
/-! DEFINITION. What a build of HBPE fixes: the four build parameters of spec/00_scope.md (R7, R8, R9), the widths derived
from them (R10), and the shape of the code table that TBL_RESET is written in (10_state.md R24). There is no free value
in the block itself: every step is a function of the state and the command (R32). -/

namespace Sys2Proof

/-- One code-table entry (R24): `v` = 1 when the symbol has a code, which is then `seq(len, code)`. -/
structure Entry where
  v    : Bool
  len  : Byte
  code : CodeWord
  deriving DecidableEq, Repr

/-- The code table (R24, R40) as a list of (address, entry) pairs: sparse, addresses strictly rising, no listed entry
equal to `Memory.unlisted` (`Memory.wf`). -/
abbrev Memory := List (Nat × Entry)

/-- What an address that is not listed reads as: no code (R24, R31: `V = 0`).
DESIGN CHOICE (unsafe, notes/assumptions/6.md): where `V = 0` the spec leaves LEN and CODE unspecified and no rule reads
them; they are held as 0. -/
def Memory.unlisted : Entry := { v := false, len := 0, code := 0 }

/-- The canonical form of a table: addresses strictly rising and below 256 (R40, R49), no entry that an unlisted address
would read as. -/
abbrev Memory.wf (m : Memory) : Prop :=
  (m.map Prod.fst).Pairwise (· < ·) ∧ ∀ p ∈ m, p.1 < 256 ∧ p.2 ≠ Memory.unlisted

/-- The build parameters, fixed for the life of the block (R7, R8, R9, R27). -/
structure Build where
  /-- `CHUNK_SYMBOLS`: how many `PUT`s make a chunk (R7). -/
  chunkSymbols : Nat
  /-- `L_MAX`: the longest code in bits (R8). -/
  lMax         : Nat
  /-- `TBL_WRITABLE`: loadable table (true) or ROM (false) (R9). -/
  tblWritable  : Bool
  /-- `TBL_RESET`: the table's content after reset, the ROM's content for ever (R9). -/
  tblReset     : Memory
  deriving DecidableEq, Repr

/-- The default build: 65536 symbols a chunk (R7), codes up to 255 bits (R8), loadable table, every entry invalid (R9). -/
def Build.default : Build :=
  { chunkSymbols := 65536, lMax := 255, tblWritable := true, tblReset := [] }

/-- A table entry a build may hold (R24): when `V = 1`, `1 <= LEN <= L_MAX` and `CODE < 2^LEN`. -/
abbrev Entry.legal (lMax : Nat) (e : Entry) : Prop :=
  e.v = true → 1 ≤ e.len.toNat ∧ e.len.toNat ≤ lMax ∧ e.code.toNat < 2 ^ e.len.toNat

/-- The constraints on the build parameters: `CHUNK_SYMBOLS >= 1` (R7), `1 <= L_MAX <= 255` (R8), and `TBL_RESET` a table
of legal entries (R9, R24). -/
abbrev Build.wf (b : Build) : Prop :=
  1 ≤ b.chunkSymbols ∧ (1 ≤ b.lMax ∧ b.lMax ≤ 255) ∧
    Memory.wf b.tblReset ∧ ∀ p ∈ b.tblReset, p.2.legal b.lMax

/-- `CW`, the width of a command record (R10, R60). -/
def Build.recordWidth (b : Build) : Nat := 20 + b.lMax

/-- The width of a table entry (R10, R24). -/
def Build.entryWidth (b : Build) : Nat := 1 + 8 + b.lMax

/-- The width of `SYMCNT`, `max(1, ceil(log2(CHUNK_SYMBOLS)))` (R10, R20, R144). -/
def Build.symcntWidth (b : Build) : Nat :=
  max 1 (if b.chunkSymbols ≤ 1 then 0 else Nat.log2 (b.chunkSymbols - 1) + 1)

end Sys2Proof
end

