-- ==== Sys2Proof/Syntax.lean ====
section
/-! DEFINITION. The commands of HBPE: one constructor of `Instr` per row of spec/opcode_table.json. The table's rows are
chosen by the `op` field alone, exactly one row for any record, and a row's constraints are operand checks whose
violation is a fault and not a failure to match (30_encoding.md, opening paragraph). So a constructor carries every field
of the record, the must-be-zero ones too, and nothing of a record is lost by decoding it. -/

namespace Sys2Proof

/-- The operand fields of the one record format `C` (R60). -/
structure Fields where
  /-- symbol, the table address: bits 11:4 (R64) -/
  sym  : Byte
  /-- code length in bits: bits 19:12 (R62) -/
  len  : Byte
  /-- code value, right-aligned: the bits from 20 up (R63) -/
  code : CodeWord
  deriving DecidableEq, Repr

/-- The rows of the opcode table (R61). A reserved row that spans several opcodes keeps the opcode bits that its mask
leaves open, so that its record can be written out again. -/
inductive Instr where
  /-- op 0x1, `PACK len, code` (R91); `sym` must be zero (R65) -/
  | pack (f : Fields)
  /-- op 0x2, `FLUSH` (R93); all fields must be zero (R65) -/
  | flush (f : Fields)
  /-- op 0x3, `LDT sym, len, code` (R101) -/
  | ldt (f : Fields)
  /-- op 0x4, `PUT sym` (R102); `len` and `code` must be zero (R65) -/
  | put (f : Fields)
  /-- op 0x0, reserved (R61, R131) -/
  | reserved0 (f : Fields)
  /-- op 0x5, reserved (R61, R131) -/
  | reserved5 (f : Fields)
  /-- op 0x6 + `low`, reserved (R61, R131) -/
  | reserved67 (low : BitVec 1) (f : Fields)
  /-- op 0x8 + `low`, reserved (R61, R131) -/
  | reserved8F (low : BitVec 3) (f : Fields)
  deriving DecidableEq, Repr

/-- The `op` field of a command's record (R61). -/
def Instr.op : Instr → BitVec 4
  | .pack _ => 0x1
  | .flush _ => 0x2
  | .ldt _ => 0x3
  | .put _ => 0x4
  | .reserved0 _ => 0x0
  | .reserved5 _ => 0x5
  | .reserved67 low _ => 0b011#3 ++ low
  | .reserved8F low _ => 0b1#1 ++ low

/-- The operand fields of a command's record. -/
def Instr.fields : Instr → Fields
  | .pack f => f
  | .flush f => f
  | .ldt f => f
  | .put f => f
  | .reserved0 f => f
  | .reserved5 f => f
  | .reserved67 _ f => f
  | .reserved8F _ f => f

end Sys2Proof
end

