-- ==== Sys2Proof/WellFormed.lean ====
section
/-! DEFINITION. Which commands are well formed in a build: the operand rules of spec/30_encoding.md R62, R63, R65 and the
legality of the opcode (R61), each check by a name of its own. -/

namespace Sys2Proof

/-- Why a command is ill formed. -/
inductive IllFormed where
  /-- a reserved opcode (R61, R67) -/
  | reservedOpcode
  /-- `LDT` in a build whose table is a ROM (R9, R61) -/
  | tableReadOnly
  /-- a must-be-zero `sym` field is not zero (R65) -/
  | symNotZero
  /-- a must-be-zero `len` field is not zero (R65) -/
  | lenNotZero
  /-- a must-be-zero `code` field is not zero (R65) -/
  | codeNotZero
  /-- `len = 0` in `PACK` or `LDT` (R62) -/
  | lenZero
  /-- `len > L_MAX` in `PACK` or `LDT` (R62) -/
  | lenTooLong
  /-- `code >= 2^len` in `PACK` or `LDT` (R63) -/
  | codeTooWide
  deriving DecidableEq, Repr

/-- The checks on a code given by `len` and `code` (R62, R63). -/
def Fields.codeDefect (lMax : Nat) (f : Fields) : Option IllFormed :=
  if f.len = 0 then some .lenZero
  else if lMax < f.len.toNat then some .lenTooLong
  else if 2 ^ f.len.toNat ≤ f.code.toNat then some .codeTooWide
  else none

/-- The checks on a command whose code is not used (R65). -/
def Fields.unusedCodeDefect (f : Fields) : Option IllFormed :=
  if f.len ≠ 0 then some .lenNotZero
  else if f.code ≠ 0 then some .codeNotZero
  else none

/-- What is wrong with a command in a build, if anything. -/
def Instr.defect (b : Build) : Instr → Option IllFormed
  | .pack f => if f.sym ≠ 0 then some .symNotZero else f.codeDefect b.lMax
  | .flush f => if f.sym ≠ 0 then some .symNotZero else f.unusedCodeDefect
  | .ldt f => if b.tblWritable = false then some .tableReadOnly else f.codeDefect b.lMax
  | .put f => f.unusedCodeDefect
  | .reserved0 _ => some .reservedOpcode
  | .reserved5 _ => some .reservedOpcode
  | .reserved67 _ _ => some .reservedOpcode
  | .reserved8F _ _ => some .reservedOpcode

/-- A command the decoder's step 3 lets through (R66). -/
abbrev Instr.WellFormed (b : Build) (i : Instr) : Prop := i.defect b = none

end Sys2Proof
end

