-- ==== Sys2Proof/Decode.lean ====
section
/-! DEFINITION. The decoder (spec/30_encoding.md R60 to R66): `decode` reads the row of the opcode table and the fields of a
record, `verdict` gives rule R66's one verdict of three; and the encoder, written from the same table (R60, R61). -/

namespace Sys2Proof

/-- The fields of a record (R60). -/
def fieldsOf (w : Record) : Fields :=
  { sym := w.extractLsb' 4 8, len := w.extractLsb' 12 8, code := w.extractLsb' 20 255 }

/-- The opcode of a record (R60). -/
def opOf (w : Record) : BitVec 4 := w.extractLsb' 0 4

/-- The row of the opcode table a record matches, with its fields (R61). Total: every record decodes (R66). -/
def decode (w : Record) : Instr :=
  match (opOf w).toNat with
  | 0 => .reserved0 (fieldsOf w)
  | 1 => .pack (fieldsOf w)
  | 2 => .flush (fieldsOf w)
  | 3 => .ldt (fieldsOf w)
  | 4 => .put (fieldsOf w)
  | 5 => .reserved5 (fieldsOf w)
  | 6 => .reserved67 0 (fieldsOf w)
  | 7 => .reserved67 1 (fieldsOf w)
  | _ => .reserved8F (w.extractLsb' 0 3) (fieldsOf w)

/-- `len` and `code` spell a code: `1 <= len <= L_MAX` (R62) and `code < 2^len` (R63). -/
def Fields.spellsCode (lMax : Nat) (f : Fields) : Bool :=
  decide (1 ≤ f.len.toNat ∧ f.len.toNat ≤ lMax ∧ f.code.toNat < 2 ^ f.len.toNat)

/-- The operands of `PACK` are legal (R62, R63, R65, R91). -/
def packLegal (b : Build) (f : Fields) : Bool := decide (f.sym = 0) && f.spellsCode b.lMax

/-- The operands of `FLUSH` are legal (R65, R93). -/
def flushLegal (f : Fields) : Bool := decide (f.sym = 0 ∧ f.len = 0 ∧ f.code = 0)

/-- The operands of `LDT` are legal (R62, R63, R101). -/
def ldtLegal (b : Build) (f : Fields) : Bool := f.spellsCode b.lMax

/-- The operands of `PUT` are legal (R65, R102). -/
def putLegal (f : Fields) : Bool := decide (f.len = 0 ∧ f.code = 0)

/-- The one verdict the decoder gives on a record (R66). -/
inductive Verdict where
  | illegalOpcode
  | illegalOperand
  | command (i : Instr)
  deriving DecidableEq, Repr

/-- A command that has passed the opcode check, with the verdict of its operand check (R66, steps 2 and 3). -/
def judge (legal : Bool) (i : Instr) : Verdict := if legal then .command i else .illegalOperand

/-- The verdict on a decoded record: opcode first, then operands, then the command (R66). -/
def Instr.verdict (b : Build) : Instr → Verdict
  | .pack f => judge (packLegal b f) (.pack f)
  | .flush f => judge (flushLegal f) (.flush f)
  | .ldt f => if b.tblWritable then judge (ldtLegal b f) (.ldt f) else .illegalOpcode
  | .put f => judge (putLegal f) (.put f)
  | .reserved0 _ => .illegalOpcode
  | .reserved5 _ => .illegalOpcode
  | .reserved67 _ _ => .illegalOpcode
  | .reserved8F _ _ => .illegalOpcode

/-- `decode(w)` of rule R66. -/
def verdict (b : Build) (w : Record) : Verdict := (decode w).verdict b

/-- The record of an opcode and its fields: `code` on top, then `len`, `sym` and `op` (R60). -/
def recordOf (op : BitVec 4) (f : Fields) : Record := f.code ++ f.len ++ f.sym ++ op

/-- The record of a command (R60, R61). -/
def encode (i : Instr) : Record := recordOf i.op i.fields

/-- What the decoder reads from the record whose low `nbits` bits are those of `w` and whose other bits are zero. Refused
only where no record is that wide. -/
def decodeTableWord (nbits w : Nat) : Option Instr :=
  if nbits ≤ 275 then some (decode (BitVec.ofNat 275 (w % 2 ^ nbits))) else none

end Sys2Proof
end

