-- ==== Sys2Proof/Machine/State.lean ====
section
/-! DEFINITION. The state of HBPE (spec/10_state.md R20 to R31): the block's registers and code table, and beside them, as
plain data the step reads, the build parameters, the two inputs (`CMD` and the reset line) and the output stream `OUT`,
which the spec calls parameters and observations of a run (R28, R29, R32; notes/assumptions/1.md to 5.md). -/

namespace Sys2Proof.Machine

structure State where
  /-- the build parameters (R7 to R9): no step changes them (R27) -/
  build  : Build
  /-- `ACC`, 7 bits: the residual, right-aligned (R21) -/
  acc    : BitVec 7
  /-- `CNT`, 3 bits: the number of valid bits in `ACC` (R22) -/
  cnt    : BitVec 3
  /-- `SYMCNT`, 0 to `CHUNK_SYMBOLS - 1`: symbols `PUT` into the current chunk (R23) -/
  symcnt : Nat
  /-- `TBL[0..255]`: the code table (R24) -/
  tbl    : Memory
  /-- `ERR`: halted by a fault (R25) -/
  err    : Bool
  /-- `CAUSE`: the code of the fault that set `ERR` (R25, R130) -/
  cause  : BitVec 2
  /-- `CMD`: the records the host presents, the next one first (R29) -/
  cmd    : List Record
  /-- the reset line at each step, the next step's value first; low once the list ends (R32, R150) -/
  rst    : List Bool
  /-- `OUT`: the bytes emitted so far, oldest first (R28) -/
  out    : List Byte
  deriving DecidableEq, Repr

/-- The faults a command raises (R130). They are recorded in `ERR` and `CAUSE` and the machine has a next state. -/
inductive Cause where
  /-- cause 1 (R131) -/
  | illegalOpcode
  /-- cause 2 (R133) -/
  | illegalOperand
  /-- cause 3 (R132) -/
  | noCode
  deriving DecidableEq, Repr

/-- The reasons the model has no next state. -/
inductive Fault where
  /-- Raised by `step` alone: `ERR = 1`, reset is not asserted and no later reset is coming, so the block has no step
  (R135; 93_implementation_defined.md U16: stuck). Safe: the block really does stand still. -/
  | halted
  deriving DecidableEq, Repr

/-- The refusals. No command of HBPE is refused: every record has a meaning (R66). -/
inductive Refusal where
  /-- Raised by an arm of `exec` that has no meaning yet; no arm is such an arm. Safe: nothing is claimed of it. -/
  | notModelled (mnemonic : String)
  deriving DecidableEq, Repr

/-- The block right after reset (R31, R150, R151), in the default build (R7 to R9), nothing presented and nothing
emitted. -/
def State.reset : State :=
  { build := Build.default, acc := 0, cnt := 0, symcnt := 0, tbl := Build.default.tblReset, err := false, cause := 0,
    cmd := [], rst := [], out := [] }

end Sys2Proof.Machine
end

