-- ==== Sys2Proof/Machine/Flags.lean ====
section
/-! DEFINITION. The flags of HBPE: `ERR` and `CAUSE` (spec/10_state.md R25), the cause codes (60_exceptions.md R130). There are
no arithmetic condition codes (R25). -/

namespace Sys2Proof.Machine

/-- The 2-bit code of a fault (R130). -/
def causeCode : Cause → BitVec 2
  | .illegalOpcode => 1
  | .illegalOperand => 2
  | .noCode => 3

/-- `ERR <- 1`, `CAUSE <- code`: both flags are written together (R25, R134). -/
def State.setFlags (s : State) (c : Cause) : State := { s with err := true, cause := causeCode c }

/-- `ERR <- 0`, `CAUSE <- 0`: only reset does this (R25, R31). -/
def State.clearFlags (s : State) : State := { s with err := false, cause := 0 }

end Sys2Proof.Machine
end

