-- ==== Sys2Proof/Machine/Operands.lean ====
section
/-! DEFINITION. What the operand fields of a command denote: bit sequences (spec/00_scope.md R12; 30_encoding.md R63), the
direct table address (R64, R106), and the table entry a code makes (R101). -/

namespace Sys2Proof.Machine

/-- `val(s)`: the integer a bit sequence spells, its first bit the most significant (R12). -/
def val (s : List Bool) : Nat := s.foldl (fun v b => 2 * v + b.toNat) 0

/-- `seq(n, v)`: the `n`-bit sequence that spells `v` (R12). -/
def seq (n v : Nat) : List Bool := (List.range n).map fun j => v.testBit (n - 1 - j)

/-- The table address of a symbol: the 8-bit `sym` field itself (R64, R106). -/
def tblAddr (sym : Byte) : Nat := sym.toNat

/-- The entry `LDT` stores: `V = 1`, the length and the code as the record has them (R101). -/
def codeEntry (len : Byte) (code : CodeWord) : Entry := { v := true, len := len, code := code }

/-- The code an entry gives its symbol, if any: `seq(LEN, CODE)` (R24). -/
def entryCode (e : Entry) : Option (List Bool) :=
  if e.v then some (seq e.len.toNat e.code.toNat) else none

end Sys2Proof.Machine
end

