-- ==== Sys2Proof/Machine/Ops.lean ====
section
/-! DEFINITION. The named operations on the state: the table's read and write (spec/20_memory.md R41, R42), emission (R13),
the packer's append (41_pack_flush.md R91) and flush (R93), the symbol count (42_table_lookup.md R102, R103), fault entry
(60_exceptions.md R134), reset (70_reset_and_hazards.md R150), and what the block does next (R29, R135, R150). -/

namespace Sys2Proof.Machine

/-- `TblRead(s)` on a table: the entry at an address; it cannot fail and has no side effect (R41). -/
def tblRead : Memory → Nat → Entry
  | [], _ => Memory.unlisted
  | (k, e) :: rest, a => if k = a then e else tblRead rest a

/-- The table with address `a` not listed; the addresses rise, so the search ends at the first one not below `a`. -/
def tblErase : Memory → Nat → Memory
  | [], _ => []
  | (k, e) :: rest, a => if k < a then (k, e) :: tblErase rest a else if k = a then rest else (k, e) :: rest

/-- The table with `e` listed at address `a`, in the place of what was listed there. -/
def tblInsert : Memory → Nat → Entry → Memory
  | [], a, e => [(a, e)]
  | (k, d) :: rest, a, e =>
    if k < a then (k, d) :: tblInsert rest a e else if k = a then (a, e) :: rest else (a, e) :: (k, d) :: rest

/-- `TblWrite(s, e)` on a table: the whole entry at one address is replaced (R42). Writing what an unlisted address reads
as removes the entry, which keeps the form canonical. -/
def tblWrite (m : Memory) (a : Nat) (e : Entry) : Memory :=
  if e = Memory.unlisted then tblErase m a else tblInsert m a e

/-- The entry a symbol reads (R41, R106). -/
def State.entry (s : State) (sym : Byte) : Entry := tblRead s.tbl (tblAddr sym)

/-- Store a symbol's entry (R42, R106). -/
def State.storeEntry (s : State) (sym : Byte) (e : Entry) : State := { s with tbl := tblWrite s.tbl (tblAddr sym) e }

/-- `emit`, for several bytes in order (R13, R28). -/
def State.emit (s : State) (bs : List Byte) : State := { s with out := s.out ++ bs }

/-- The whole bytes of the `n`-bit word `t`, most significant first: byte `i` is `(t div 2^(n-8(i+1))) mod 256`, for `i` in
0 to `n div 8 - 1` (R91). -/
def wholeBytes (t n : Nat) : List Byte := (List.range (n / 8)).map fun i => BitVec.ofNat 8 (t / 2 ^ (n - 8 * (i + 1)))

/-- Append the bits `seq(len, code)` to the chunk (R91): the residual and the new bits are joined into the word `t` of `n`
bits, its whole bytes are emitted and the rest is the new residual. All arithmetic is exact (R96). -/
def State.append (s : State) (len code : Nat) : State :=
  let n := s.cnt.toNat + len
  let t := s.acc.toNat * 2 ^ len + code
  { s.emit (wholeBytes t n) with cnt := BitVec.ofNat 3 (n % 8), acc := BitVec.ofNat 7 (t % 2 ^ (n % 8)) }

/-- End the chunk (R93): the residual, if any, is emitted right-aligned in one byte; `ACC`, `CNT` and `SYMCNT` become 0. -/
def State.endChunk (s : State) : State :=
  { s.emit (if s.cnt.toNat > 0 then [s.acc.setWidth 8] else []) with acc := 0, cnt := 0, symcnt := 0 }

/-- Count one symbol (R102): the last symbol of a chunk ends the chunk in the same step (R103). -/
def State.countSymbol (s : State) : State :=
  if s.symcnt = s.build.chunkSymbols - 1 then s.endChunk else { s with symcnt := s.symcnt + 1 }

/-- Fault entry (R134): `ERR <- 1`, `CAUSE <- code` and nothing else. There is no handler, no saved context and no return
short of reset (R137). -/
def State.raise (s : State) (c : Cause) : State := s.setFlags c

/-- Reset (R31, R150), the only way out of a halt (R137): every register takes its reset value, the table becomes
`TBL_RESET`. `OUT`, the records not yet accepted and the build stay as they are. -/
def State.applyReset (s : State) : State :=
  { s.clearFlags with acc := 0, cnt := 0, symcnt := 0, tbl := s.build.tblReset }

/-- What the block does next. -/
inductive Event where
  /-- reset is asserted: no command is accepted (R150) -/
  | reset (s : State)
  /-- nothing happens: no record is presented (R68), or the block is halted and a reset is still to come (R135) -/
  | wait (s : State)
  /-- halted for good (R135) -/
  | halted
  /-- the record is accepted and leaves the command channel (R29) -/
  | accept (w : Record) (s : State)
  deriving DecidableEq, Repr

/-- The reset line is sampled first and overrides everything (R136, R150); a halted block accepts nothing (R135); else the
front record is accepted (R26, R29). -/
def State.next (s : State) : Event :=
  match s.rst with
  | true :: later => .reset { s.applyReset with rst := later }
  | _ =>
    if s.err then (if s.rst.tail.any id then .wait { s with rst := s.rst.tail } else .halted)
    else match s.cmd with
      | [] => .wait { s with rst := s.rst.tail }
      | w :: later => .accept w { s with cmd := later, rst := s.rst.tail }

/-- The state with one record in front of the command channel and nothing that keeps it from being accepted: not halted
(R135), reset not asserted (R150). -/
def State.present (s : State) (w : Record) : State := { s.clearFlags with cmd := w :: s.cmd, rst := [] }

end Sys2Proof.Machine
end

