-- ==== Sys2Proof/Machine/Packer.lean ====
section
/-! DEFINITION. The packer family (spec/41_pack_flush.md): `PACK` (R91, R92) and `FLUSH` (R93, R94). -/

namespace Sys2Proof.Machine

/-- `PACK len, code` (R91): append the code to the chunk; operands that break R62, R63 or R65 raise ILLEGAL_OPERAND before
anything else happens (R133). -/
def execPack (f : Fields) (s : State) : Host.Outcome State Fault Refusal :=
  .next (if packLegal s.build f then s.append f.len.toNat f.code.toNat else s.raise .illegalOperand)

/-- `FLUSH` (R93): end the chunk; a non-zero field raises ILLEGAL_OPERAND (R65, R133). -/
def execFlush (f : Fields) (s : State) : Host.Outcome State Fault Refusal :=
  .next (if flushLegal f then s.endChunk else s.raise .illegalOperand)

end Sys2Proof.Machine
end

