-- ==== Sys2Proof/Machine/Reserved.lean ====
section
/-! DEFINITION. The reserved rows of the opcode table (spec/30_encoding.md R61, R67): each raises ILLEGAL_OPCODE, the other
fields are not examined (60_exceptions.md R131). -/

namespace Sys2Proof.Machine

/-- op 0x0 (R131). -/
def execReserved0 (_ : Fields) (s : State) : Host.Outcome State Fault Refusal := .next (s.raise .illegalOpcode)

/-- op 0x5 (R131). -/
def execReserved5 (_ : Fields) (s : State) : Host.Outcome State Fault Refusal := .next (s.raise .illegalOpcode)

/-- op 0x6 and 0x7 (R131). -/
def execReserved67 (_ : BitVec 1) (_ : Fields) (s : State) : Host.Outcome State Fault Refusal :=
  .next (s.raise .illegalOpcode)

/-- op 0x8 to 0xF (R131). -/
def execReserved8F (_ : BitVec 3) (_ : Fields) (s : State) : Host.Outcome State Fault Refusal :=
  .next (s.raise .illegalOpcode)

end Sys2Proof.Machine
end

