-- ==== Sys2Proof/Machine/Table.lean ====
section
/-! DEFINITION. The table family (spec/42_table_lookup.md): `LDT` (R101), `PUT` with its automatic flush (R102, R103). -/

namespace Sys2Proof.Machine

/-- `LDT sym, len, code` (R101): ILLEGAL_OPCODE in a ROM build (R131), ILLEGAL_OPERAND where the operands spell no code
(R133), else the entry of `sym` is replaced whole. -/
def execLdt (f : Fields) (s : State) : Host.Outcome State Fault Refusal :=
  .next (if s.build.tblWritable then
      (if ldtLegal s.build f then s.storeEntry f.sym (codeEntry f.len f.code) else s.raise .illegalOperand)
    else s.raise .illegalOpcode)

/-- Pack the code of a symbol and count the symbol; a symbol without a code raises NO_CODE before anything else happens
(R102, R132). -/
def State.putSymbol (s : State) (sym : Byte) : State :=
  let e := s.entry sym
  if e.v then (s.append e.len.toNat e.code.toNat).countSymbol else s.raise .noCode

/-- `PUT sym` (R102): a non-zero `len` or `code` field raises ILLEGAL_OPERAND (R65, R133), which comes before NO_CODE
(R136). -/
def execPut (f : Fields) (s : State) : Host.Outcome State Fault Refusal :=
  .next (if putLegal f then s.putSymbol f.sym else s.raise .illegalOperand)

end Sys2Proof.Machine
end

