-- ==== Sys2Proof/Machine/Dispatch.lean ====
section
/-! DEFINITION. The dispatch of a command to its meaning, one arm per row of spec/opcode_table.json. -/

namespace Sys2Proof.Machine

def exec (i : Instr) (s : State) : Host.Outcome State Fault Refusal :=
  match i with
  | .pack f => Sys2Proof.Machine.execPack f s
  | .flush f => Sys2Proof.Machine.execFlush f s
  | .ldt f => Sys2Proof.Machine.execLdt f s
  | .put f => Sys2Proof.Machine.execPut f s
  | .reserved0 f => Sys2Proof.Machine.execReserved0 f s
  | .reserved5 f => Sys2Proof.Machine.execReserved5 f s
  | .reserved67 low f => Sys2Proof.Machine.execReserved67 low f s
  | .reserved8F low f => Sys2Proof.Machine.execReserved8F low f s

end Sys2Proof.Machine
end

