-- ==== Sys2Proof/Machine/Step.lean ====
section
/-! DEFINITION. One step of the block at transaction level: one accepted command, start to end (spec/00_scope.md R14), or
reset, or nothing. -/

namespace Sys2Proof.Machine

def step (s : State) : Host.Outcome State Fault Refusal :=
  match s.next with
  | .reset t => .next t
  | .wait t => .next t
  | .halted => .fault .halted
  | .accept w t => exec (decode w) t

/-- The state with the record whose low `nbits` bits are those of `w`, all others zero, next on the command channel, so that
the very next step accepts and executes it. The block fetches nothing itself (R26): this stands for the host presenting
the record (notes/assumptions/13.md). -/
def State.withFetchWord (s : State) (nbits w : Nat) : State := s.present (BitVec.ofNat 275 (w % 2 ^ nbits))

end Sys2Proof.Machine
end

