-- ==== Sys2Proof/Machine/Reference.lean ====
section
/-! DEFINITION. The reference functions of spec/40_reference_codec.md: `bits_to_bytes` as text and as bits (R81, R82),
`bytes_to_bits` (R84), `ENC_CHUNK` (R86), `ENC_STREAM` (R87). The block does not execute them; its output must equal
them (R88). -/

namespace Sys2Proof.Machine

/-- Consecutive pieces of `n` elements, the last one possibly shorter; `fuel` bounds how many. -/
def piecesAux {α : Type} (n : Nat) : Nat → List α → List (List α)
  | 0, _ => []
  | fuel + 1, l => if l.isEmpty then [] else l.take n :: piecesAux n fuel (l.drop n)

/-- A list cut into consecutive pieces of `n >= 1` elements (R81, R82, R87). -/
def pieces {α : Type} (n : Nat) (l : List α) : List (List α) := piecesAux n l.length l

/-- `B2B(s)`: each run of eight bits is one byte, its first bit the most significant; a shorter last run is read as an
integer of that width, right-aligned (R43, R44, R45, R82). -/
def b2b (s : List Bool) : List Byte := (pieces 8 s).map fun run => BitVec.ofNat 8 (val run)

/-- The errors of the document's functions and of the host's software, under their canonical names (R139; 90_conflicts.md
C1). None of them is a fault of the block. -/
inductive HostError where
  | invalidBitString
  | treeConstructionFailure
  deriving DecidableEq, Repr

/-- One character of a textual bit-string. -/
def bitOfChar (c : Char) : Option Bool := if c = '0' then some false else if c = '1' then some true else none

/-- The bits of a text over `0` and `1`; nothing where any other character occurs. -/
def bitsOfText : List Char → Option (List Bool)
  | [] => some []
  | c :: rest =>
    match bitOfChar c, bitsOfText rest with
    | some b, some bs => some (b :: bs)
    | _, _ => none

/-- The text of a bit sequence (R12). -/
def textOfBits (s : List Bool) : List Char := s.map fun b => if b then '1' else '0'

/-- One piece of the text, read as a binary integer. -/
def parsePiece (piece : List Char) : Except HostError Byte :=
  match bitsOfText piece with
  | some bits => .ok (BitVec.ofNat 8 (val bits))
  | none => .error .invalidBitString

/-- `bits_to_bytes_text(t)`: InvalidBitString, and no bytes, where any piece holds another character (R81). -/
def bitsToBytesText (t : List Char) : Except HostError (List Byte) := (pieces 8 t).mapM parsePiece

/-- The digits `bytes_to_bits` gives for one byte: the fewest that spell it. What it gives for 0 is not stated and is the
argument `zeroDigits` (R84; N11; D25). -/
def digitsOfByte (zeroDigits : List Bool) (b : Byte) : List Bool :=
  if b = 0 then zeroDigits else seq (Nat.log2 b.toNat + 1) b.toNat

/-- `bytes_to_bits` (R84), a software utility of the document. -/
def bytesToBits (zeroDigits : List Bool) (bs : List Byte) : List Bool := bs.flatMap (digitsOfByte zeroDigits)

/-- A code table as the document has it: a partial map from byte value to bit sequence (R86, R100). -/
abbrev CodeTable := Byte → Option (List Bool)

/-- The codes of a chunk's symbols joined, if every symbol has one (R86). -/
def codesOf (T : CodeTable) : List Byte → Option (List Bool)
  | [] => some []
  | b :: rest =>
    match T b, codesOf T rest with
    | some c, some cs => some (c ++ cs)
    | _, _ => none

/-- `ENC_CHUNK(T, c)`, nothing where a symbol has no code (R86). -/
def encChunk (T : CodeTable) (c : List Byte) : Option (List Byte) := (codesOf T c).map b2b

/-- The chunks' bytes joined, if every chunk can be encoded. -/
def encChunks (T : CodeTable) : List (List Byte) → Option (List Byte)
  | [] => some []
  | c :: rest =>
    match encChunk T c, encChunks T rest with
    | some b, some bs => some (b ++ bs)
    | _, _ => none

/-- `ENC_STREAM(T, x)` with chunks of `chunkSymbols` bytes (R87). -/
def encStream (T : CodeTable) (chunkSymbols : Nat) (x : List Byte) : Option (List Byte) :=
  encChunks T (pieces chunkSymbols x)

end Sys2Proof.Machine
end

