-- ==== Sys2Proof/Machine/HostTable.lean ====
section
/-! DEFINITION. The host's software that builds the code table (spec/43_table_construction.md R110 to R122) and the commands it
sends (R110, R153, R154). Not part of the block (00_scope.md R5): it defines which tables the block meets. What the
document leaves open (R115, R117; 92_eei_decisions.md D20) is an argument. -/

namespace Sys2Proof.Machine

/-- A tree node (R112): a leaf has a symbol and no children, an internal node two children and no symbol. -/
inductive HuffmanNode where
  | leaf (frequency : Nat) (symbol : Byte)
  | internal (frequency : Nat) (left right : HuffmanNode)
  deriving DecidableEq, Repr

/-- `frequency` (R112). -/
def HuffmanNode.freq : HuffmanNode → Nat
  | .leaf f _ => f
  | .internal f _ _ => f

/-- The symbols of the leaves, left to right. -/
def HuffmanNode.symbols : HuffmanNode → List Byte
  | .leaf _ s => [s]
  | .internal _ l r => l.symbols ++ r.symbols

/-- A frequency map: one (byte value, count) pair per byte value that occurs, in the map's iteration order (R111, R113). -/
abbrev FrequencyMap := List (Byte × Nat)

/-- `m` is a frequency map of the stream `x`: no byte value twice, and exactly the byte values that occur, each with its
count (R111). The iteration order is left open (N8). -/
abbrev FrequencyMap.counts (m : FrequencyMap) (x : List Byte) : Prop :=
  (m.map Prod.fst).Nodup ∧ (∀ b, b ∈ x ↔ b ∈ m.map Prod.fst) ∧ ∀ p ∈ m, p.2 = x.count p.1

/-- `count` (R111) with the byte values in the order in which they first occur, one of the orders left open. -/
def countStream (x : List Byte) : FrequencyMap :=
  (x.foldl (fun seen b => if b ∈ seen then seen else seen ++ [b]) []).map fun b => (b, x.count b)

/-- What the builder leaves open, `TIEBREAK` (R115): how the collection is sorted, and which of the two removed nodes becomes
the left child. -/
structure TieBreak where
  sort : List HuffmanNode → List HuffmanNode
  swap : HuffmanNode → HuffmanNode → Bool

/-- A legal tie-break sorts by descending frequency (R114). -/
def TieBreak.legal (tie : TieBreak) : Prop :=
  ∀ c, (tie.sort c).Perm c ∧ (tie.sort c).Pairwise (fun x y => y.freq ≤ x.freq)

/-- Merge two nodes under a new internal node whose frequency is their sum (R114). -/
def TieBreak.merge (tie : TieBreak) (x y : HuffmanNode) : HuffmanNode :=
  if tie.swap x y then .internal (x.freq + y.freq) y x else .internal (x.freq + y.freq) x y

/-- The builder's loop (R114): sort, remove the last two, reinsert their parent, until one node is left. -/
def buildLoop (tie : TieBreak) : Nat → List HuffmanNode → Except HostError HuffmanNode
  | 0, _ => .error .treeConstructionFailure
  | fuel + 1, c =>
    match (tie.sort c).reverse with
    | [] => .error .treeConstructionFailure
    | [root] => .ok root
    | y :: x :: rest => buildLoop tie fuel (rest.reverse ++ [tie.merge x y])

/-- `build(frequency_map)` (R113, R114, R116): one leaf per entry, then the loop; TreeConstructionFailure on the empty map. -/
def buildTree (tie : TieBreak) (m : FrequencyMap) : Except HostError HuffmanNode :=
  buildLoop tie m.length (m.map fun p => .leaf p.2 p.1)

/-- The walk of `assign_codes`: `0` to the left, `1` to the right; a leaf's code is the path to it (R118). -/
def walkCodes (path : List Bool) : HuffmanNode → List (Byte × List Bool)
  | .leaf _ s => [(s, path)]
  | .internal _ l r => walkCodes (path ++ [false]) l ++ walkCodes (path ++ [true]) r

/-- `assign_codes(root)` (R118); a root that is a leaf gets the one-digit code `SINGLE_CODE_BIT` (R117). -/
def assignCodes (singleCodeBit : Bool) : HuffmanNode → List (Byte × List Bool)
  | .leaf _ s => [(s, [singleCodeBit])]
  | .internal f l r => walkCodes [] (.internal f l r)

/-- The code table of a list of codes: the first entry of a byte value. -/
def tableOf (codes : List (Byte × List Bool)) : CodeTable := fun b => codes.lookup b

/-- The weighted path length of a code assignment: the sum over the map's symbols of `frequency(s) * l_s` (R119), in bits what
the codes spend on a stream with these counts. A symbol without a code adds nothing. -/
def weightedLength (m : FrequencyMap) (codes : List (Byte × List Bool)) : Nat :=
  (m.map fun p => p.2 * ((tableOf codes p.1).getD []).length).sum

/-- `LDT s, |c|, val(c)` (R88, R110). -/
def ldtOf (s : Byte) (c : List Bool) : Instr :=
  .ldt { sym := s, len := BitVec.ofNat 8 c.length, code := BitVec.ofNat 255 (val c) }

/-- `PUT s`. -/
def putOf (s : Byte) : Instr := .put { sym := s, len := 0, code := 0 }

/-- `PACK |c|, val(c)`. -/
def packOf (c : List Bool) : Instr :=
  .pack { sym := 0, len := BitVec.ofNat 8 c.length, code := BitVec.ofNat 255 (val c) }

/-- `FLUSH`. -/
def flushCommand : Instr := .flush { sym := 0, len := 0, code := 0 }

/-- What the host sends after reset for one run in the loadable build: the table, the input, one final `FLUSH` (R110, R153,
R154). The `LDT`s come in the order of `codes`, which R153 leaves free: the caller's choice, since any list may be given. -/
def runCommands (codes : List (Byte × List Bool)) (x : List Byte) : List Instr :=
  codes.map (fun p => ldtOf p.1 p.2) ++ x.map putOf ++ [flushCommand]

/-- `compress` up to the block: count, build, assign, and send (R110). The count fails only where the tree does (R116).
DESIGN CHOICE (safe, notes/assumptions/19.md): the `LDT`s are sent in the tree's left-to-right order of leaves; R153 leaves
their order free. -/
def compressCommands (tie : TieBreak) (singleCodeBit : Bool) (x : List Byte) : Except HostError (List Instr) :=
  match buildTree tie (countStream x) with
  | .ok root => .ok (runCommands (assignCodes singleCodeBit root) x)
  | .error e => .error e

end Sys2Proof.Machine
end

