-- ==== Sys2Proof/Machine/Assembler.lean ====
section
/-! DEFINITION. The assembler of spec/30_encoding.md (R70 to R73): one line of text to the commands it stands for. -/

namespace Sys2Proof.Machine

/-- Why the assembler rejects a line. -/
inductive AsmError where
  /-- the text is none of the forms of R70, R72, R73 -/
  | badSyntax
  /-- an operand is out of its field's range (R71) -/
  | operandRange
  /-- `PACKS` with a character other than `0` and `1` (R72) -/
  | invalidBitString
  /-- `LDTS` with a string that is empty, too long, or not over `0` and `1` (R73) -/
  | badCodeString
  /-- `PUTS` with a character that is not ASCII (R73) -/
  | notAscii
  deriving DecidableEq, Repr

/-- The pieces of a line. -/
inductive Token where
  /-- a mnemonic or a number -/
  | word (cs : List Char)
  /-- a character in single quotes (R71) -/
  | char (c : Char)
  /-- a text in double quotes (R72, R73) -/
  | text (cs : List Char)
  | comma
  deriving DecidableEq, Repr

/-- A word's characters, read so far in reverse, as a token if there are any. -/
def wordToken (acc : List Char) : List Token := if acc.isEmpty then [] else [.word acc.reverse]

/-- What the lexer is inside of, with the characters read so far in reverse. -/
inductive LexMode where
  | word (acc : List Char)
  | text (acc : List Char)
  | quote
  | quoted (c : Char)
  deriving DecidableEq, Repr

/-- Cut a line into tokens; `;` starts a comment (R70). -/
def lexLine : LexMode → List Char → Option (List Token)
  | .word acc, [] => some (wordToken acc)
  | _, [] => none
  | .text acc, c :: rest =>
    if c = '"' then (lexLine (.word []) rest).map (Token.text acc.reverse :: ·) else lexLine (.text (c :: acc)) rest
  | .quote, c :: rest => lexLine (.quoted c) rest
  | .quoted x, c :: rest => if c = '\'' then (lexLine (.word []) rest).map (Token.char x :: ·) else none
  | .word acc, c :: rest =>
    if c = ';' then some (wordToken acc)
    else if c = ' ' ∨ c = '\t' then (lexLine (.word []) rest).map (wordToken acc ++ ·)
    else if c = ',' then (lexLine (.word []) rest).map (wordToken acc ++ Token.comma :: ·)
    else if c = '"' then (lexLine (.text []) rest).map (wordToken acc ++ ·)
    else if c = '\'' then (lexLine .quote rest).map (wordToken acc ++ ·)
    else lexLine (.word (c :: acc)) rest

/-- The value of a digit character. -/
def digitValue (c : Char) : Option Nat :=
  if '0' ≤ c ∧ c ≤ '9' then some (c.toNat - '0'.toNat)
  else if 'a' ≤ c ∧ c ≤ 'f' then some (c.toNat - 'a'.toNat + 10)
  else if 'A' ≤ c ∧ c ≤ 'F' then some (c.toNat - 'A'.toNat + 10)
  else none

/-- The number a list of digits spells in a base, continued from `v`. -/
def digitsValue (base : Nat) : Nat → List Char → Option Nat
  | v, [] => some v
  | v, c :: rest =>
    match digitValue c with
    | some d => if d < base then digitsValue base (v * base + d) rest else none
    | none => none

/-- A number: hexadecimal with `0x`, binary with `0b`, else decimal (R71). -/
def numberOf : List Char → Option Nat
  | [] => none
  | '0' :: 'x' :: c :: rest => digitsValue 16 0 (c :: rest)
  | '0' :: 'b' :: c :: rest => digitsValue 2 0 (c :: rest)
  | c :: rest => digitsValue 10 0 (c :: rest)

/-- A numeric operand below `limit` (R71). -/
def numOperand (limit : Nat) : Token → Except AsmError Nat
  | .word cs =>
    match numberOf cs with
    | some v => if v < limit then .ok v else .error .operandRange
    | none => .error .badSyntax
  | _ => .error .badSyntax

/-- A symbol operand: a number, or a printable ASCII character in single quotes (R71). -/
def symOperand : Token → Except AsmError Byte
  | .char c => if 32 ≤ c.toNat ∧ c.toNat ≤ 126 then .ok (BitVec.ofNat 8 c.toNat) else .error .badSyntax
  | t => (numOperand 256 t).map (BitVec.ofNat 8)

/-- The code of one piece of a `PACKS` string (R72). -/
def packPiece (piece : List Bool) : Instr := packOf piece

/-- `PACKS "<bits>"`: pieces of `L_MAX` digits, one `PACK` each; InvalidBitString and nothing emitted where a character is
not a digit (R72). -/
def packs (b : Build) (t : List Char) : Except AsmError (List Instr) :=
  match bitsOfText t with
  | some bits => .ok ((pieces b.lMax bits).map packPiece)
  | none => .error .invalidBitString

/-- `LDTS <sym>, "<bits>"` (R73). -/
def ldts (b : Build) (s : Byte) (t : List Char) : Except AsmError (List Instr) :=
  match bitsOfText t with
  | some bits => if bits.isEmpty ∨ b.lMax < bits.length then .error .badCodeString else .ok [ldtOf s bits]
  | none => .error .badCodeString

/-- `PUTS "<text>"`: one `PUT` per byte of the ASCII text (R73). -/
def puts (t : List Char) : Except AsmError (List Instr) :=
  if t.all (·.toNat < 128) then .ok (t.map fun c => putOf (BitVec.ofNat 8 c.toNat)) else .error .notAscii

/-- The operands of a line after its mnemonic, between commas; the forms of R70, R72 and R73. -/
def assembleTokens (b : Build) : List Token → Except AsmError (List Instr)
  | [] => .ok []
  | [.word m] => if m = ['F', 'L', 'U', 'S', 'H'] then .ok [flushCommand] else .error .badSyntax
  | [.word m, .text t] =>
    if m = ['P', 'A', 'C', 'K', 'S'] then packs b t else if m = ['P', 'U', 'T', 'S'] then puts t else .error .badSyntax
  | [.word m, x] =>
    if m = ['P', 'U', 'T'] then (symOperand x).map fun s => [putOf s] else .error .badSyntax
  | [.word m, x, .comma, .text t] =>
    if m = ['L', 'D', 'T', 'S'] then (symOperand x).bind fun s => ldts b s t else .error .badSyntax
  | [.word m, x, .comma, y] =>
    if m = ['P', 'A', 'C', 'K'] then
      (numOperand 256 x).bind fun len => (numOperand (2 ^ b.lMax) y).map fun code =>
        [.pack { sym := 0, len := BitVec.ofNat 8 len, code := BitVec.ofNat 255 code }]
    else .error .badSyntax
  | [.word m, x, .comma, y, .comma, z] =>
    if m = ['L', 'D', 'T'] then
      (symOperand x).bind fun s => (numOperand 256 y).bind fun len => (numOperand (2 ^ b.lMax) z).map fun code =>
        [.ldt { sym := s, len := BitVec.ofNat 8 len, code := BitVec.ofNat 255 code }]
    else .error .badSyntax
  | _ => .error .badSyntax

/-- One line of assembly text to its commands (R70 to R73). -/
def assembleLine (b : Build) (line : List Char) : Except AsmError (List Instr) :=
  match lexLine (.word []) line with
  | some toks => assembleTokens b toks
  | none => .error .badSyntax

/-- The records of a line (R70). -/
def assembleRecords (b : Build) (line : List Char) : Except AsmError (List Record) :=
  (assembleLine b line).map fun is => is.map encode

end Sys2Proof.Machine
end

