-- ==== Sys2Proof/Machine/Pins.lean ====
section
/-! DEFINITION. The binding of the transaction-level block to its pins (spec/70_reset_and_hazards.md R161 to R163): what one
rising edge of `clk` does. The spec fixes the order of what crosses the pins and leaves every moment open (R160): the moments
are the argument `PinChoice`, so a statement for every choice holds of every implementation of this shape
(notes/assumptions/14.md). -/

namespace Sys2Proof.Machine

/-- The input ports at an edge (R161). -/
structure PinInputs where
  rst      : Bool
  cmdValid : Bool
  cmdData  : Record
  outReady : Bool
  deriving DecidableEq, Repr

/-- What the block is free to time as it likes (R160): whether it can accept a record now, whether the record it is working
on, or the one it accepts now, finishes now, whether it raises `out_valid` now. -/
structure PinChoice where
  accept : Bool
  finish : Bool
  offer  : Bool
  deriving DecidableEq, Repr

/-- The block at pin level: the transaction-level state, the accepted record not yet finished, the bytes not yet
transferred, whether `out_valid` is raised, and the bytes transferred so far. -/
structure PinState where
  core     : State
  inflight : Option Record
  pending  : List Byte
  offering : Bool
  sent     : List Byte
  deriving DecidableEq, Repr

/-- The output ports (R161). -/
structure PinOutputs where
  cmdReady : Bool
  outValid : Bool
  outData  : Byte
  err      : Bool
  errCause : BitVec 2
  busy     : Bool
  deriving DecidableEq, Repr

/-- `busy`: an accepted command has not finished or has bytes not yet transferred (R161). -/
def PinState.busy (p : PinState) : Bool := p.inflight.isSome || !p.pending.isEmpty

/-- A byte is transferred where `out_valid` and `out_ready` are both 1 (R161). -/
def PinState.transfer (inp : PinInputs) (p : PinState) : PinState :=
  if p.offering && inp.outReady then
    { p with sent := p.sent ++ p.pending.take 1, pending := p.pending.drop 1, offering := false }
  else p

/-- The record being worked on is executed as one transaction-level step; the bytes of the step wait for their transfer
(R162). -/
def PinState.finish (ch : PinChoice) (p : PinState) : PinState :=
  match p.inflight with
  | some w =>
    if ch.finish then
      match step { p.core with cmd := [w], rst := [] } with
      | .next t => { p with core := t, inflight := none, pending := p.pending ++ t.out.drop p.core.out.length }
      | .fault _ => p
      | .refused _ => p
    else p
  | none => p

/-- `cmd_ready`: 0 whenever `ERR = 1` (R161). DESIGN CHOICE (unsafe, notes/assumptions/20.md): a record can be accepted where
none is in progress, or on the edge where the one in progress finishes without a fault; R160 and R162 leave open whether a
block takes records further ahead. -/
def PinState.cmdReady (p : PinState) (ch : PinChoice) : Bool :=
  ch.accept && !p.core.err && (p.finish ch).inflight.isNone && !(p.finish ch).core.err

/-- The output ports (R161): `err` and `err_cause` show `ERR` and `CAUSE`. -/
def PinState.outputs (p : PinState) (ch : PinChoice) : PinOutputs :=
  { cmdReady := p.cmdReady ch, outValid := p.offering, outData := p.pending.headD 0, err := p.core.err,
    errCause := p.core.cause, busy := p.busy }

/-- A record is accepted where `cmd_valid` and `cmd_ready` are both 1 (R161). -/
def PinState.accept (ready : Bool) (inp : PinInputs) (p : PinState) : PinState :=
  if inp.cmdValid && ready then { p with inflight := some inp.cmdData } else p

/-- `out_valid` is raised over the oldest waiting byte; once raised it stays until the transfer (R161). -/
def PinState.offer (ch : PinChoice) (p : PinState) : PinState :=
  if ch.offer && !p.pending.isEmpty then { p with offering := true } else p

/-- Reset at an edge: every register takes its reset value, the record being worked on and the bytes not yet transferred
are discarded (R150, R163). -/
def PinState.applyReset (p : PinState) : PinState :=
  { p with core := p.core.applyReset, inflight := none, pending := [], offering := false }

/-- What an edge does with records: a record accepted while none is in progress may finish on the same edge, and on the edge
where the one in progress finishes the next can be accepted. At most one record finishes on an edge. -/
def PinState.work (ch : PinChoice) (inp : PinInputs) (ready : Bool) (p : PinState) : PinState :=
  match p.inflight with
  | none => (p.accept ready inp).finish ch
  | some _ => (p.finish ch).accept ready inp

/-- One rising edge of `clk`. -/
def PinState.edge (ch : PinChoice) (inp : PinInputs) (p : PinState) : PinState :=
  if inp.rst then p.applyReset else ((p.transfer inp).work ch inp (p.cmdReady ch)).offer ch

/-- The pins right after reset. -/
def PinState.reset : PinState :=
  { core := State.reset, inflight := none, pending := [], offering := false, sent := [] }

end Sys2Proof.Machine
end

