-- ==== Sys2Proof/Safety.lean ====
section
/-! DEFINITION. The terms in which statements are made: the invariant of the block, the pending sequence, the end of a run, the
code table as a partial map, the conditions under which a record faults. -/

namespace Sys2Proof.Machine

/-- Not halted: the block accepts commands (R25, R135, R151). -/
abbrev State.running (s : State) : Prop := s.err = false

/-- Reset is not asserted at the next step (R150). -/
abbrev State.resetLow (s : State) : Prop := s.rst.head? ≠ some true

/-- The residual's invariant (R22): `ACC < 2^CNT`. -/
abbrev State.residualWf (s : State) : Prop := s.acc.toNat < 2 ^ s.cnt.toNat

/-- `RES`, the pending sequence (R33). -/
def State.res (s : State) : List Bool := seq s.cnt.toNat s.acc.toNat

/-- Every listed entry is one the build may hold (R24). -/
abbrev State.entriesLegal (s : State) : Prop := ∀ p ∈ s.tbl, p.2.legal s.build.lMax

/-- `CAUSE` is 0 exactly when `ERR` is 0 (R25, R130). -/
abbrev State.flagsWf (s : State) : Prop := s.err = false ↔ s.cause = 0

/-- In a ROM build the table is `TBL_RESET` for ever (R9). -/
abbrev State.romWf (s : State) : Prop := s.build.tblWritable = false → s.tbl = s.build.tblReset

/-- Every presented record is a CW-bit value (R60, R161). -/
abbrev State.recordsFit (s : State) : Prop := ∀ w ∈ s.cmd, w.toNat < 2 ^ s.build.recordWidth

/-- The invariant of the block: legal build (R7 to R9), residual (R22), symbol count in range (R23), canonical table of
legal entries (R24, R40), flags (R25), ROM (R9), records of the build's width (R60). -/
abbrev State.Inv (s : State) : Prop :=
  s.build.wf ∧ s.residualWf ∧ s.symcnt < s.build.chunkSymbols ∧ Memory.wf s.tbl ∧ s.entriesLegal ∧ s.flagsWf ∧
    s.romWf ∧ s.recordsFit

/-- The run is complete (R155): nothing left to accept, not halted, nothing pending. -/
abbrev State.complete (s : State) : Prop := s.cmd = [] ∧ s.err = false ∧ s.cnt = 0 ∧ s.symcnt = 0

/-- The code table the block holds, as the document's partial map (R24, R100). -/
def State.codes (s : State) : CodeTable := fun b => entryCode (s.entry b)

/-- The record's fields as numbers (R60, R69). -/
def recOp (w : Record) : Nat := w.toNat % 16
def recSym (w : Record) : Nat := w.toNat / 16 % 256
def recLen (w : Record) : Nat := w.toNat / 4096 % 256
def recCode (w : Record) : Nat := w.toNat / 1048576

/-- The record's opcode is illegal in the build (R66 step 1, R131). -/
abbrev badOpcode (b : Build) (w : Record) : Prop :=
  ¬ (recOp w = 1 ∨ recOp w = 2 ∨ recOp w = 3 ∨ recOp w = 4) ∨ (recOp w = 3 ∧ b.tblWritable = false)

/-- The record breaks an operand rule of its opcode (R66 step 2, R133). -/
abbrev badOperand (b : Build) (w : Record) : Prop :=
  (recOp w = 1 ∧ recSym w ≠ 0) ∨
  (recOp w = 2 ∧ (recSym w ≠ 0 ∨ recLen w ≠ 0 ∨ recCode w ≠ 0)) ∨
  (recOp w = 4 ∧ (recLen w ≠ 0 ∨ recCode w ≠ 0)) ∨
  ((recOp w = 1 ∨ recOp w = 3) ∧ (recLen w = 0 ∨ b.lMax < recLen w ∨ 2 ^ recLen w ≤ recCode w))

/-- The record is a `PUT` of a symbol without a code (R132). -/
abbrev missingCode (s : State) (w : Record) : Prop :=
  recOp w = 4 ∧ (s.entry (BitVec.ofNat 8 (recSym w))).v = false

/-- The invariant of the pins while the host keeps its duty not to reset a busy block (R162, R163, R164): what was
transferred and what waits are together `OUT`, a byte is offered only when one waits, and nothing is worked on while the
block is halted. -/
abbrev PinState.Inv (p : PinState) : Prop :=
  p.sent ++ p.pending = p.core.out ∧ (p.offering = true → p.pending ≠ []) ∧ (p.core.err = true → p.inflight = none)

end Sys2Proof.Machine
end

