-- ==== Sys2Proof/Certificates/Slice0/Obligations.lean ====
section
/-! DEFINITION. The statements about HBPE for the provers, from the numbered rules of spec/. A state in a statement is any
state, reached by a run or not, that meets the statement's hypotheses. -/

open Sys2Proof Sys2Proof.Machine

/-! ### Reset, halt, idleness, and what a step runs -/

/-- R31: what a step with reset asserted leaves, whatever the block was doing; and the default build has no code in its
table after reset. LEN and CODE of an entry with `V = 0` are unspecified, so nothing is said of them. The reset line is the
model's list of samples (notes/assumptions/3.md). -/
def Obligations.ResetGivesTheStatedValues : Prop :=
  (∀ (s : State) (later : List Bool), s.rst = true :: later →
    ∃ t, step s = .next t ∧ t.acc = 0 ∧ t.cnt = 0 ∧ t.symcnt = 0 ∧ t.err = false ∧ t.cause = 0 ∧ t.out = s.out ∧
      ∀ sym : Byte, (t.entry sym).v = (tblRead s.build.tblReset sym.toNat).v ∧
        ((t.entry sym).v = true → (t.entry sym).len = (tblRead s.build.tblReset sym.toNat).len ∧
          (t.entry sym).code = (tblRead s.build.tblReset sym.toNat).code)) ∧
  State.reset.acc = 0 ∧ State.reset.cnt = 0 ∧ State.reset.symcnt = 0 ∧ State.reset.err = false ∧
    State.reset.cause = 0 ∧ ∀ sym : Byte, (State.reset.entry sym).v = false

/-- R136, R150: reset wins over a halt and over a presented record; the record stays presented, the build stays. That the
reset line and `CMD` are lists in the state is the model's form (notes/assumptions/2.md, 3.md). -/
def Obligations.ResetOverridesCommandAndHalt : Prop :=
  ∀ (s : State) (later : List Bool), s.rst = true :: later →
    step s = .next { s with acc := 0, cnt := 0, symcnt := 0, tbl := s.build.tblReset, err := false, cause := 0,
                            rst := later }

/-- R137, R151: reset leads out of a halt, and the block then accepts the presented record. -/
def Obligations.AfterResetTheNextRecordRuns : Prop :=
  ∀ (s : State) (later : List Bool) (w : Record) (ws : List Record),
    s.rst = true :: later → later.head? ≠ some true → s.cmd = w :: ws →
    ∃ t, exec (decode w) { s with acc := 0, cnt := 0, symcnt := 0, tbl := s.build.tblReset, err := false, cause := 0,
                                  cmd := ws, rst := later.tail } = .next t ∧
      Host.Core.run core 2 s = .next t

/-- R135, and the model's choice of notes/assumptions/4.md: a halted block with reset low stands still. Where no reset is
coming the model stops with the fault `halted`; where one is coming it waits, and nothing but the reset line's list
moves. -/
def Obligations.HaltedBlockAcceptsNothing : Prop :=
  ∀ s : State, s.err = true → s.resetLow →
    (true ∉ s.rst.tail → step s = .fault .halted) ∧
    (true ∈ s.rst.tail → step s = .next { s with rst := s.rst.tail })

/-- R68, R146: with no record presented an idle block keeps all its state (the model's idle step, notes/assumptions/2.md). -/
def Obligations.IdleBlockKeepsItsState : Prop :=
  ∀ s : State, s.running → s.resetLow → s.cmd = [] → step s = .next { s with rst := s.rst.tail }

/-- R14, R26, R29: a step accepts the front record and runs the command it decodes to; around `exec` the record leaves the
command channel and the reset line moves on. -/
def Obligations.StepRunsTheDecodedInstruction : Prop :=
  ∀ (s : State) (w : Record) (ws : List Record), s.running → s.resetLow → s.cmd = w :: ws →
    step s = exec (decode w) { s with cmd := ws, rst := s.rst.tail }

/-! ### Invariants of every step -/

/-- The reset state meets the invariant that `EveryStepKeepsTheInvariant` says every step keeps. -/
def Obligations.ResetStateMeetsTheInvariant : Prop := State.reset.Inv

/-- R7 to R9, R22 to R25, R40, R60: every step, from any state that meets the block's invariant, gives a state that meets
it. -/
def Obligations.EveryStepKeepsTheInvariant : Prop :=
  ∀ s t : State, s.Inv → step s = .next t → t.Inv

/-- R22: `ACC < 2^CNT` is kept by every step on its own, whatever the table and the symbol count hold; so a `CNT` of 0 means
an `ACC` of 0. -/
def Obligations.ResidualStaysBelowItsLength : Prop :=
  ∀ s t : State, s.residualWf → step s = .next t → t.residualWf ∧ (t.cnt = 0 → t.acc = 0)

/-- R9: in a ROM build the table is `TBL_RESET` after every step, and the build parameters themselves never change. -/
def Obligations.RomTableNeverChanges : Prop :=
  ∀ s t : State, step s = .next t → t.build = s.build ∧
    (s.build.tblWritable = false → s.tbl = s.build.tblReset → t.tbl = s.build.tblReset)

/-- R28, R159: `OUT` only grows, in every step, reset and faults included. -/
def Obligations.OutputOnlyGrows : Prop :=
  ∀ s t : State, step s = .next t → s.out <+: t.out

/-- R48, R160: one step emits at most `ceil((7 + L_MAX) / 8)` bytes. -/
def Obligations.BytesOfOneStepAreBounded : Prop :=
  ∀ s t : State, s.Inv → step s = .next t → t.out.length ≤ s.out.length + (7 + s.build.lMax + 7) / 8

/-! ### Encoding and decoding -/

/-- R60, R61: every command, its must-be-zero and ignored fields at every value, decodes back from its record. -/
def Obligations.DecodeOfEncodeIsTheCommand : Prop :=
  ∀ i : Instr, decode (encode i) = i

/-- R66: no bit of a record is dropped: the record of the command it decodes to is the record itself. -/
def Obligations.EncodeOfDecodeIsTheRecord : Prop :=
  ∀ w : Record, encode (decode w) = w

/-- Records of spec/95_test_vectors.md (T-PACK-1, T-FLUSH, T-LDT-2, T-PUT-1, T-DEC-4, reserved rows) decode to the commands
they stand for. -/
def Obligations.SampleRecordsDecode : Prop :=
  decode 0x703001 = .pack { sym := 0, len := 3, code := 7 } ∧
  decode 0x2 = .flush { sym := 0, len := 0, code := 0 } ∧
  decode 0x202623 = .ldt { sym := 0x62, len := 2, code := 2 } ∧
  decode 0x614 = .put { sym := 0x61, len := 0, code := 0 } ∧
  decode 0x0 = .reserved0 { sym := 0, len := 0, code := 0 } ∧
  decode 0x9FF5 = .reserved5 { sym := 0xFF, len := 9, code := 0 } ∧
  decode 0x7 = .reserved67 1 { sym := 0, len := 0, code := 0 } ∧
  decode 0xF = .reserved8F 7 { sym := 0, len := 0, code := 0 }

/-- R69: the integer value of a command's record is `op + 16*sym + 4096*len + 2^20*code`, the same in every build (no
build parameter occurs in it); `PACK 3, 0b111` is 0x703001. -/
def Obligations.RecordValueIsTheWeightedSum : Prop :=
  (∀ i : Instr, (encode i).toNat =
    i.op.toNat + 16 * i.fields.sym.toNat + 4096 * i.fields.len.toNat + 2 ^ 20 * i.fields.code.toNat) ∧
  (encode (.pack { sym := 0, len := 3, code := 0b111 })).toNat = 0x703001

/-- R66: the one verdict on every record in every build, in the order opcode, operands, command; the two illegal verdicts
become faults when the record is executed. -/
def Obligations.VerdictOnEveryRecord : Prop :=
  (∀ (s : State) (w : Record), s.running →
    (verdict s.build w = .illegalOpcode → exec (decode w) s = .next { s with err := true, cause := 1 }) ∧
    (verdict s.build w = .illegalOperand → exec (decode w) s = .next { s with err := true, cause := 2 })) ∧
  ∀ (b : Build) (w : Record),
    (badOpcode b w → verdict b w = .illegalOpcode) ∧
    (¬ badOpcode b w → badOperand b w → verdict b w = .illegalOperand) ∧
    (¬ badOpcode b w → ¬ badOperand b w →
      verdict b w = .command (
        if recOp w = 1 then .pack { sym := 0, len := BitVec.ofNat 8 (recLen w), code := BitVec.ofNat 255 (recCode w) }
        else if recOp w = 2 then .flush { sym := 0, len := 0, code := 0 }
        else if recOp w = 3 then
          .ldt { sym := BitVec.ofNat 8 (recSym w), len := BitVec.ofNat 8 (recLen w),
                 code := BitVec.ofNat 255 (recCode w) }
        else .put { sym := BitVec.ofNat 8 (recSym w), len := 0, code := 0 }))

/-! ### Faults -/

/-- R66, R67: every command has a next state; nothing is undefined, refused or a machine stop. -/
def Obligations.EveryCommandHasANextState : Prop :=
  ∀ (i : Instr) (s : State), ∃ t, exec i s = .next t

/-- R131: a record whose opcode is reserved, or 0x3 in a ROM build, raises ILLEGAL_OPCODE whatever its other fields hold. -/
def Obligations.IllegalOpcodeFault : Prop :=
  ∀ (s : State) (w : Record), s.running →
    (recOp w = 0 ∨ 5 ≤ recOp w ∨ (recOp w = 3 ∧ s.build.tblWritable = false)) →
    exec (decode w) s = .next { s with err := true, cause := 1 }

/-- R67, R131: the reserved rows of the opcode table, at every value of their fields and open opcode bits: their effect is
the fault entry of ILLEGAL_OPCODE. -/
def Obligations.ReservedRowsRaiseIllegalOpcode : Prop :=
  ∀ (s : State) (f : Fields) (a : BitVec 1) (c : BitVec 3), s.running →
    exec (.reserved0 f) s = .next { s with err := true, cause := 1 } ∧
    exec (.reserved5 f) s = .next { s with err := true, cause := 1 } ∧
    exec (.reserved67 a f) s = .next { s with err := true, cause := 1 } ∧
    exec (.reserved8F c f) s = .next { s with err := true, cause := 1 }

/-- R133: a record with a legal opcode that breaks an operand rule raises ILLEGAL_OPERAND and has no other effect. -/
def Obligations.IllegalOperandFault : Prop :=
  ∀ (s : State) (w : Record), s.running → ¬ badOpcode s.build w → badOperand s.build w →
    exec (decode w) s = .next { s with err := true, cause := 2 }

/-- R132: `PUT` of a symbol whose entry has `V = 0` raises NO_CODE and has no other effect. -/
def Obligations.PutWithoutCodeFault : Prop :=
  ∀ (s : State) (sym : Byte), s.running → (s.entry sym).v = false →
    exec (.put { sym := sym, len := 0, code := 0 }) s = .next { s with err := true, cause := 3 }

/-- R136: one command reports at most one fault, the first that applies in the order ILLEGAL_OPCODE, ILLEGAL_OPERAND,
NO_CODE; where none applies `ERR` stays 0 and `CAUSE` stays as it is; with reset asserted no record is accepted and no
fault recorded. -/
def Obligations.FirstFaultInPriorityOrderIsReported : Prop :=
  (∀ (s : State) (w : Record), s.running →
    ∃ t, exec (decode w) s = .next t ∧
      t.err = decide (badOpcode s.build w ∨ badOperand s.build w ∨ missingCode s w) ∧
      t.cause = if badOpcode s.build w then 1 else if badOperand s.build w then 2 else if missingCode s w then 3
        else s.cause) ∧
  ∀ s : State, s.rst.head? = some true → ∃ t, step s = .next t ∧ t.err = false ∧ t.cause = 0 ∧ t.cmd = s.cmd

/-- R130, R134: a command that raises a fault changes `ERR` and `CAUSE` and nothing else, the cause being 1, 2 or 3; a
command that raises none leaves both. -/
def Obligations.FaultsArePrecise : Prop :=
  ∀ (i : Instr) (s t : State), s.running → exec i s = .next t →
    (t.err = true → t.cause ≠ 0 ∧ t = { s with err := true, cause := t.cause }) ∧
    (t.err = false → t.cause = s.cause)

/-! ### PACK and FLUSH -/

/-- R91: `PACK len, code` in full: the pseudocode's `n`, `t`, `k`, `r`, the emitted bytes in order, the new `CNT` and `ACC`;
nothing else changes; and its fault. -/
def Obligations.PackResult : Prop :=
  ∀ (s : State) (f : Fields), s.running →
    opOf (encode (.pack f)) = 0x1 ∧
    (f.sym = 0 → 1 ≤ f.len.toNat → f.len.toNat ≤ s.build.lMax → f.code.toNat < 2 ^ f.len.toNat →
      exec (.pack f) s = .next (
        let n := s.cnt.toNat + f.len.toNat
        let t := s.acc.toNat * 2 ^ f.len.toNat + f.code.toNat
        let k := n / 8
        let r := n % 8
        { s with out := s.out ++ (List.range k).map (fun i => BitVec.ofNat 8 (t / 2 ^ (n - 8 * (i + 1)) % 256)),
                 cnt := BitVec.ofNat 3 r,
                 acc := BitVec.ofNat 7 (t % 2 ^ r) })) ∧
    ((f.sym ≠ 0 ∨ f.len = 0 ∨ s.build.lMax < f.len.toNat ∨ 2 ^ f.len.toNat ≤ f.code.toNat) →
      exec (.pack f) s = .next { s with err := true, cause := 2 })

/-- R21, R33, R43, R44, R90: in terms of bit sequences, `PACK` joins the pending bits and the code, emits the reference
packing of all whole runs of eight, and keeps the rest pending. -/
def Obligations.PackAppendsTheCodeToTheBitSequence : Prop :=
  ∀ (s : State) (len : Byte) (code : CodeWord), s.running → s.residualWf →
    1 ≤ len.toNat → len.toNat ≤ s.build.lMax → code.toNat < 2 ^ len.toNat →
    ∃ t, exec (.pack { sym := 0, len := len, code := code }) s = .next t ∧
      (let bits := s.res ++ seq len.toNat code.toNat
       t.out = s.out ++ b2b (bits.take (8 * (bits.length / 8))) ∧ t.res = bits.drop (8 * (bits.length / 8)))

/-- R92: splitting is invisible: `PACK a, x` then `PACK b, y` leaves the state that `PACK a+b, x * 2^b + y` leaves. -/
def Obligations.SplittingAPackIsInvisible : Prop :=
  ∀ (s : State) (a b c : Byte) (x y z : CodeWord), s.running → s.residualWf →
    1 ≤ a.toNat → 1 ≤ b.toNat → a.toNat + b.toNat ≤ s.build.lMax →
    x.toNat < 2 ^ a.toNat → y.toNat < 2 ^ b.toNat →
    c.toNat = a.toNat + b.toNat → z.toNat = x.toNat * 2 ^ b.toNat + y.toNat →
    ∃ t u, exec (.pack { sym := 0, len := a, code := x }) s = .next t ∧
      exec (.pack { sym := 0, len := b, code := y }) t = .next u ∧
      exec (.pack { sym := 0, len := c, code := z }) s = .next u

/-- R93: `FLUSH` in full, and its fault; 0x2 is its only legal record. -/
def Obligations.FlushResult : Prop :=
  ∀ (s : State) (f : Fields), s.running →
    (f.sym = 0 → f.len = 0 → f.code = 0 →
      (encode (.flush f)).toNat = 0x2 ∧
      exec (.flush f) s = .next { s with
        out := s.out ++ (if 0 < s.cnt.toNat then [BitVec.ofNat 8 s.acc.toNat] else []),
        acc := 0, cnt := 0, symcnt := 0 }) ∧
    ((f.sym ≠ 0 ∨ f.len ≠ 0 ∨ f.code ≠ 0) → exec (.flush f) s = .next { s with err := true, cause := 2 })

/-- R45, R94: what `FLUSH` emits is the reference packing of the pending bits, a byte below `2^CNT` and below 128 where
there is one; a second `FLUSH` changes nothing. -/
def Obligations.FlushEmitsThePendingBitsOnce : Prop :=
  ∀ s : State, s.running → s.residualWf →
    ∃ t, exec (.flush { sym := 0, len := 0, code := 0 }) s = .next t ∧
      t.out = s.out ++ b2b s.res ∧
      (∀ b ∈ b2b s.res, b.toNat < 2 ^ s.cnt.toNat ∧ b.toNat < 128) ∧
      exec (.flush { sym := 0, len := 0, code := 0 }) t = .next t

/-- R95: from a state with `CNT = 0`, steps that accept any number of legal `PACK`s and one `FLUSH` append to `OUT` exactly
the reference packing of the codes joined, and end with `CNT = 0` and `ACC = 0`. -/
def Obligations.PacksThenFlushEmitTheReferencePacking : Prop :=
  ∀ (s : State) (cs : List (Byte × CodeWord)), s.running → s.residualWf → s.cnt = 0 → s.rst = [] →
    (∀ p ∈ cs, 1 ≤ p.1.toNat ∧ p.1.toNat ≤ s.build.lMax ∧ p.2.toNat < 2 ^ p.1.toNat) →
    s.cmd = (cs.map (fun p => Instr.pack { sym := 0, len := p.1, code := p.2 }) ++ [flushCommand]).map encode →
    ∃ t, Host.Core.run core (cs.length + 1) s = .next t ∧
      t.out = s.out ++ b2b (cs.flatMap fun p => seq p.1.toNat p.2.toNat) ∧
      t.cnt = 0 ∧ t.acc = 0 ∧ t.err = false ∧ t.cmd = []

/-! ### LDT and PUT -/

/-- R101: `LDT sym, len, code` in full: the symbol's entry is replaced whole, every other entry reads as before, nothing
else changes; its faults; and no command makes an entry invalid again. -/
def Obligations.LdtResult : Prop :=
  ∀ (s : State) (f : Fields), s.running →
    opOf (encode (.ldt f)) = 0x3 ∧
    (s.build.tblWritable = true → 1 ≤ f.len.toNat → f.len.toNat ≤ s.build.lMax → f.code.toNat < 2 ^ f.len.toNat →
      ∃ t, exec (.ldt f) s = .next t ∧ t = { s with tbl := t.tbl } ∧
        t.entry f.sym = { v := true, len := f.len, code := f.code } ∧
        ∀ sym, sym ≠ f.sym → t.entry sym = s.entry sym) ∧
    (s.build.tblWritable = true →
      (f.len = 0 ∨ s.build.lMax < f.len.toNat ∨ 2 ^ f.len.toNat ≤ f.code.toNat) →
      exec (.ldt f) s = .next { s with err := true, cause := 2 }) ∧
    (s.build.tblWritable = false → exec (.ldt f) s = .next { s with err := true, cause := 1 }) ∧
    ∀ (i : Instr) (t : State) (sym : Byte), exec i s = .next t → (s.entry sym).v = true → (t.entry sym).v = true

/-- R102: `PUT sym` in full: the pseudocode's packing, the count, and the flush when the chunk is full; nothing else
changes; and its faults. -/
def Obligations.PutResult : Prop :=
  ∀ (s : State) (f : Fields), s.running →
    opOf (encode (.put f)) = 0x4 ∧
    (f.len = 0 → f.code = 0 → (s.entry f.sym).v = true →
      exec (.put f) s = .next (
        let e := s.entry f.sym
        let n := s.cnt.toNat + e.len.toNat
        let t := s.acc.toNat * 2 ^ e.len.toNat + e.code.toNat
        let r := n % 8
        let bytes := (List.range (n / 8)).map (fun i => BitVec.ofNat 8 (t / 2 ^ (n - 8 * (i + 1)) % 256))
        let a := t % 2 ^ r
        if s.symcnt = s.build.chunkSymbols - 1 then
          { s with out := s.out ++ bytes ++ (if 0 < r then [BitVec.ofNat 8 a] else []), acc := 0, cnt := 0, symcnt := 0 }
        else
          { s with out := s.out ++ bytes, acc := BitVec.ofNat 7 a, cnt := BitVec.ofNat 3 r, symcnt := s.symcnt + 1 })) ∧
    ((f.len ≠ 0 ∨ f.code ≠ 0) → exec (.put f) s = .next { s with err := true, cause := 2 }) ∧
    (f.len = 0 → f.code = 0 → (s.entry f.sym).v = false → exec (.put f) s = .next { s with err := true, cause := 3 })

/-- R21, R100, R103: in terms of bit sequences, `PUT` joins the pending bits and the symbol's code; the last symbol of a
chunk emits the reference packing of all of them and leaves nothing pending, any other emits the whole runs. -/
def Obligations.PutEncodesOneSymbol : Prop :=
  ∀ (s : State) (sym : Byte) (c : List Bool), s.Inv → s.running → s.codes sym = some c →
    ∃ t, exec (.put { sym := sym, len := 0, code := 0 }) s = .next t ∧
      (s.symcnt + 1 = s.build.chunkSymbols →
        t.out = s.out ++ b2b (s.res ++ c) ∧ t.res = [] ∧ t.symcnt = 0) ∧
      (s.symcnt + 1 ≠ s.build.chunkSymbols →
        t.out = s.out ++ b2b ((s.res ++ c).take (8 * ((s.res ++ c).length / 8))) ∧
        t.res = (s.res ++ c).drop (8 * ((s.res ++ c).length / 8)) ∧ t.symcnt = s.symcnt + 1)

/-- R23, R104: `SYMCNT` under every command: `PUT` of a symbol with a code counts modulo `CHUNK_SYMBOLS`, `FLUSH` clears,
nothing else touches it; so with `CHUNK_SYMBOLS = 1` it stays 0. -/
def Obligations.SymcntCountsThePutsOfTheChunk : Prop :=
  ∀ (i : Instr) (s t : State), s.running → s.symcnt < s.build.chunkSymbols → exec i s = .next t →
    t.symcnt < t.build.chunkSymbols ∧
    t.symcnt =
      if t.err then s.symcnt
      else match i with
        | .put _ => (s.symcnt + 1) % s.build.chunkSymbols
        | .flush _ => 0
        | _ => s.symcnt

/-- R41, R50, R52: a `PUT` right after an `LDT` of the same symbol packs the code that the `LDT` stored, with no command in
between: the two steps leave `OUT`, `ACC` and `CNT` as one `PACK` of that code would, before the count. -/
def Obligations.LdtIsVisibleToTheNextPut : Prop :=
  ∀ (s : State) (f : Fields) (ws : List Record), s.running → s.rst = [] → s.build.tblWritable = true →
    1 ≤ f.len.toNat → f.len.toNat ≤ s.build.lMax → f.code.toNat < 2 ^ f.len.toNat →
    s.symcnt + 1 < s.build.chunkSymbols →
    s.cmd = encode (.ldt f) :: encode (putOf f.sym) :: ws →
    ∃ t u, Host.Core.run core 2 s = .next t ∧
      exec (.pack { sym := 0, len := f.len, code := f.code }) s = .next u ∧
      t.out = u.out ∧ t.acc = u.acc ∧ t.cnt = u.cnt ∧ t.cmd = ws ∧ t.err = false

/-! ### The table and the frames -/

/-- R42: a table write replaces one entry whole, and reads of every other address give what they gave; only `LDT` in a
loadable build writes, and only its own symbol's entry. That the table's list has a canonical form, which the write keeps,
is the model's choice (notes/assumptions/12.md). -/
def Obligations.TableWriteChangesOneEntry : Prop :=
  (∀ (m : Memory) (a : Nat) (e : Entry), Memory.wf m → a < 256 →
    Memory.wf (tblWrite m a e) ∧ tblRead (tblWrite m a e) a = e ∧
      ∀ a', a' ≠ a → tblRead (tblWrite m a e) a' = tblRead m a') ∧
  ∀ (i : Instr) (s t : State) (a : Nat), exec i s = .next t → tblRead t.tbl a ≠ tblRead s.tbl a →
    ∃ f, i = .ldt f ∧ s.build.tblWritable = true ∧ a = tblAddr f.sym

/-- The frame of every command (R23, R25, R27, R48, R91, R93, R101, R102, R131): the build, `CMD` and the reset line under
every command; then row by row what it leaves unchanged. `ACC`, `CNT`, `SYMCNT` and `OUT` are the block's other
registers and its stream; the table is read entry by entry. -/
def Obligations.FrameOfEveryCommand : Prop :=
  ∀ (i : Instr) (s t : State), exec i s = .next t →
    t.build = s.build ∧ t.cmd = s.cmd ∧ t.rst = s.rst ∧
    match i with
    | .pack _ => t.symcnt = s.symcnt ∧ ∀ a, tblRead t.tbl a = tblRead s.tbl a
    | .flush _ => ∀ a, tblRead t.tbl a = tblRead s.tbl a
    | .ldt f => t.acc = s.acc ∧ t.cnt = s.cnt ∧ t.symcnt = s.symcnt ∧ t.out = s.out ∧
        ∀ a, a ≠ tblAddr f.sym → tblRead t.tbl a = tblRead s.tbl a
    | .put _ => ∀ a, tblRead t.tbl a = tblRead s.tbl a
    | .reserved0 _ | .reserved5 _ | .reserved67 _ _ | .reserved8F _ _ =>
        t.acc = s.acc ∧ t.cnt = s.cnt ∧ t.symcnt = s.symcnt ∧ t.out = s.out ∧ ∀ a, tblRead t.tbl a = tblRead s.tbl a

/-- R10, R20, R23: the width the spec gives `SYMCNT` holds every count the block reaches, and is the least such width of at
least one bit; it is 16 in the default build. -/
def Obligations.SymcntFitsItsWidth : Prop :=
  (∀ s : State, s.symcnt < s.build.chunkSymbols → s.symcnt < 2 ^ s.build.symcntWidth) ∧
  (∀ (b : Build) (w : Nat), 1 ≤ b.chunkSymbols → 1 ≤ w → b.chunkSymbols ≤ 2 ^ w → b.symcntWidth ≤ w) ∧
  Build.default.symcntWidth = 16

/-! ### The reference functions and the equality with the hardware -/

/-- R82: the bytes of `B2B(s)`, each by its formula; the textual form of R81 gives the same bytes on the text of `s`. -/
def Obligations.ReferencePackingByteByByte : Prop :=
  ∀ s : List Bool,
    let n := s.length
    let k := n / 8
    let r := n % 8
    (b2b s).length = (if r = 0 then k else k + 1) ∧
    (∀ i, i < k → ((b2b s)[i]?.map BitVec.toNat) =
      some (((List.range 8).map fun j => (s[8 * i + j]?.getD false).toNat * 2 ^ (7 - j)).sum)) ∧
    (0 < r → ((b2b s)[k]?.map BitVec.toNat) =
        some (((List.range r).map fun j => (s[8 * k + j]?.getD false).toNat * 2 ^ (r - 1 - j)).sum) ∧
      ∀ b, (b2b s)[k]? = some b → b.toNat < 2 ^ r) ∧
    bitsToBytesText (textOfBits s) = .ok (b2b s)

/-- R83: the length, the lack of injectivity, the packing of a sequence that starts on a byte boundary, and the stability
of the whole bytes of a beginning. -/
def Obligations.ReferencePackingConsequences : Prop :=
  (∀ s : List Bool, (b2b s).length = (s.length + 7) / 8) ∧ b2b [] = [] ∧
  (b2b [true, true, true] = [7] ∧ b2b [false, true, true, true] = [7] ∧
    b2b [false, false, false, false, false, true, true, true] = [7]) ∧
  (∀ s t : List Bool, s.length % 8 = 0 → b2b (s ++ t) = b2b s ++ b2b t) ∧
  (∃ s t : List Bool, b2b (s ++ t) ≠ b2b s ++ b2b t) ∧
  ∀ s t : List Bool, (b2b (s ++ t)).take (s.length / 8) = (b2b s).take (s.length / 8)

/-- R12: `val` and `seq` are inverse to each other. -/
def Obligations.SequencesAndIntegersAreInverse : Prop :=
  (∀ n v, v < 2 ^ n → (seq n v).length = n ∧ val (seq n v) = v) ∧ ∀ s, val s < 2 ^ s.length ∧ seq s.length (val s) = s

/-- R81: the textual form agrees with the bit form on every text over `0` and `1` and fails with InvalidBitString, giving
no bytes, on every other text. -/
def Obligations.TextualPackingAgreesOrFails : Prop :=
  (∀ s : List Bool, bitsToBytesText (textOfBits s) = .ok (b2b s)) ∧
  (∀ t : List Char, (∃ c ∈ t, c ≠ '0' ∧ c ≠ '1') → bitsToBytesText t = .error .invalidBitString) ∧
  bitsToBytesText [] = .ok []

/-- R84, R85: `bytes_to_bits` spells every byte but 0 with the fewest digits, so it is not undone by packing; the digits
of 0 are left open and the statement holds for every choice. -/
def Obligations.BytesToBitsIsNotADecoder : Prop :=
  ∀ zeroDigits : List Bool,
    (∀ b : Byte, b ≠ 0 → val (digitsOfByte zeroDigits b) = b.toNat ∧ (digitsOfByte zeroDigits b).head? = some true) ∧
    b2b (bytesToBits zeroDigits [7, 7]) = [63]

/-- R88, R105, R110, R155: from a state as reset leaves it, in any legal loadable build, the table's `LDT`s, one `PUT` a byte
and one `FLUSH` run without a fault, append `ENC_STREAM` of the input to `OUT`, and end complete. -/
def Obligations.StreamOutputEqualsTheReference : Prop :=
  ∀ (s : State) (codes : List (Byte × List Bool)) (x : List Byte),
    s.build.wf → s.build.tblWritable = true → s.running → s.acc = 0 → s.cnt = 0 → s.symcnt = 0 → s.rst = [] →
    s.tbl = s.build.tblReset →
    (codes.map Prod.fst).Nodup → (∀ p ∈ codes, 1 ≤ p.2.length ∧ p.2.length ≤ s.build.lMax) →
    (∀ b ∈ x, b ∈ codes.map Prod.fst) →
    s.cmd = (runCommands codes x).map encode →
    ∃ t bytes, encStream (tableOf codes) s.build.chunkSymbols x = some bytes ∧
      Host.Core.run core (codes.length + x.length + 1) s = .next t ∧ t.out = s.out ++ bytes ∧ t.acc = 0 ∧ t.complete

/-! ### The assembler -/

/-- R72: `PACKS` of a text over `0` and `1` gives the fewest legal `PACK`s whose codes joined are the text's digits; any
other text is rejected. -/
def Obligations.PacksExpandsToTheDigits : Prop :=
  ∀ b : Build, b.wf →
    (∀ s : List Bool, ∃ fs : List Fields,
      packs b (textOfBits s) = .ok (fs.map Instr.pack) ∧
      fs.length = (s.length + (b.lMax - 1)) / b.lMax ∧
      (∀ f ∈ fs, packLegal b f = true) ∧
      fs.flatMap (fun f => seq f.len.toNat f.code.toNat) = s) ∧
    ∀ t : List Char, (∃ c ∈ t, c ≠ '0' ∧ c ≠ '1') → packs b t = .error .invalidBitString

/-- R70, R71, R73: lines of assembly text from spec/30_encoding.md and spec/95_test_vectors.md give the records written
there. -/
def Obligations.SampleLinesAssemble : Prop :=
  assembleRecords Build.default "PACK 3, 0b111 ; a comment".toList = .ok [0x703001] ∧
  assembleRecords Build.default "FLUSH".toList = .ok [0x2] ∧
  assembleRecords Build.default "LDT   0x62, 2, 0b10".toList = .ok [0x202623] ∧
  assembleRecords Build.default "PUT 'A'".toList = .ok [0x414] ∧
  assembleRecords Build.default "PACKS \"11101110111\"".toList = .ok [0x7770B001] ∧
  assembleRecords Build.default "PACKS \"2b\"".toList = .error .invalidBitString ∧
  assembleRecords Build.default "LDTS 'b', \"10\"".toList = .ok [0x202623] ∧
  assembleRecords Build.default "PUTS \"ab\"".toList = .ok [0x614, 0x624]

/-! ### The host's table builder -/

/-- R114, R116, R118: under every legal tie-break the builder fails exactly on the empty map, with TreeConstructionFailure,
and otherwise gives a tree with one leaf per entry, whose root weighs the sum of the counts; the code assignment gives
exactly one code per entry. -/
def Obligations.BuilderGivesOneCodePerEntry : Prop :=
  ∀ (tie : TieBreak) (bit : Bool) (m : FrequencyMap), tie.legal →
    (m = [] → buildTree tie m = .error .treeConstructionFailure) ∧
    (m ≠ [] → ∃ root, buildTree tie m = .ok root ∧ root.freq = (m.map Prod.snd).sum ∧
      ((assignCodes bit root).map Prod.fst).Perm (m.map Prod.fst))

/-- R118, R119: the codes of every tree are prefix-free: of two entries at different places neither code begins with the
other. -/
def Obligations.AssignedCodesArePrefixFree : Prop :=
  ∀ (bit : Bool) (root : HuffmanNode),
    (assignCodes bit root).Pairwise fun p q => ¬ p.2 <+: q.2 ∧ ¬ q.2 <+: p.2

/-- R117, R119: a tree with `n` leaves gives codes of 1 to `max(1, n - 1)` digits; a single leaf gets the one digit left
open by the document. -/
def Obligations.AssignedCodeLengthsAreBounded : Prop :=
  (∀ (bit : Bool) (root : HuffmanNode), ∀ p ∈ assignCodes bit root,
    1 ≤ p.2.length ∧ p.2.length ≤ max 1 (root.symbols.length - 1)) ∧
  ∀ (bit : Bool) (f : Nat) (sym : Byte), assignCodes bit (.leaf f sym) = [(sym, [bit])]

/-- R119: the Kraft sum of the codes of a tree with at least two leaves is 1; it is 1/2 for a single leaf. -/
def Obligations.KraftSumOfAssignedCodes : Prop :=
  (∀ (bit : Bool) (f : Nat) (l r : HuffmanNode),
    ((assignCodes bit (.internal f l r)).map fun p => (1 / 2 : ℚ) ^ p.2.length).sum = 1) ∧
  ∀ (bit : Bool) (f : Nat) (sym : Byte),
    ((assignCodes bit (.leaf f sym)).map fun p => (1 / 2 : ℚ) ^ p.2.length).sum = 1 / 2

/-- R119: the built tree minimises the weighted path length: under every legal tie-break no tree with the map's symbols on
its leaves spends fewer digits on the counts; a single leaf spends one digit a symbol whichever digit it is. The map has
one entry per byte value (R111). -/
def Obligations.BuiltTreeMinimisesTheWeightedLength : Prop :=
  ∀ (tie : TieBreak) (bit bit' : Bool) (m : FrequencyMap) (root other : HuffmanNode), tie.legal →
    (m.map Prod.fst).Nodup → buildTree tie m = .ok root → other.symbols.Perm (m.map Prod.fst) →
    weightedLength m (assignCodes bit root) ≤ weightedLength m (assignCodes bit' other)

/-- R121: two legal tie-breaks and two orders of the same map give trees of the same weighted total; the lengths of single
symbols can differ: the counts A:1, B:1, C:2, D:2 have one legal tie-break that gives lengths 3, 3, 1, 2 and one that gives
2, 2, 2, 2, each with the total 12. -/
def Obligations.WeightedTotalIsTheSameUnderEveryTieBreak : Prop :=
  (∀ (tie tie' : TieBreak) (bit bit' : Bool) (m m' : FrequencyMap) (root root' : HuffmanNode), tie.legal → tie'.legal →
    (m.map Prod.fst).Nodup → m.Perm m' → buildTree tie m = .ok root → buildTree tie' m' = .ok root' →
    weightedLength m (assignCodes bit root) = weightedLength m' (assignCodes bit' root')) ∧
  let m : FrequencyMap := [(0x41, 1), (0x42, 1), (0x43, 2), (0x44, 2)]
  let lengths (root : HuffmanNode) : List Nat :=
    m.map fun p => ((tableOf (assignCodes false root) p.1).getD []).length
  ∃ (tie tie' : TieBreak) (root root' : HuffmanNode), tie.legal ∧ tie'.legal ∧
    buildTree tie m = .ok root ∧ lengths root = [3, 3, 1, 2] ∧ weightedLength m (assignCodes false root) = 12 ∧
    buildTree tie' m = .ok root' ∧ lengths root' = [2, 2, 2, 2] ∧ weightedLength m (assignCodes false root') = 12

/-- R105, R110, R119: compression of any non-empty stream in the default build, under every legal tie-break and either
single-symbol digit: the host's commands run from reset without a fault and `OUT` is `ENC_STREAM` of the stream under
the table that was built. -/
def Obligations.CompressionFromResetEmitsTheReferenceStream : Prop :=
  ∀ (tie : TieBreak) (bit : Bool) (x : List Byte), tie.legal → x ≠ [] →
    ∃ root cmds t bytes, buildTree tie (countStream x) = .ok root ∧
      compressCommands tie bit x = .ok cmds ∧
      encStream (tableOf (assignCodes bit root)) 65536 x = some bytes ∧
      Host.Core.run core cmds.length { State.reset with cmd := cmds.map encode } = .next t ∧
      t.out = bytes ∧ t.complete

/-! ### The pins -/

/-- R161, R162: while the host does not reset a busy block, every edge of every timing keeps: the bytes transferred and the
bytes waiting are together `OUT`, in order; a byte is offered only when one waits; nothing is worked on while `err` is 1.
So when `busy` is 0 every byte of `OUT` has been transferred. -/
def Obligations.PinsDeliverTheOutputInOrder : Prop :=
  (∀ (ch : PinChoice) (inp : PinInputs) (p : PinState), p.Inv → (inp.rst = true → p.busy = false) →
    (p.edge ch inp).Inv ∧ p.sent <+: (p.edge ch inp).sent) ∧
  PinState.reset.Inv ∧ ∀ p : PinState, p.Inv → p.busy = false → p.sent = p.core.out

/-- R150, R161, R162: an edge without reset either leaves the block's state or completes one transaction-level step, of the
record in progress or of the one accepted on that edge; an edge with reset leaves the reset values. -/
def Obligations.PinsRunOneTransactionAtATime : Prop :=
  ∀ (ch : PinChoice) (inp : PinInputs) (p : PinState),
    (inp.rst = true → (p.edge ch inp).core = p.core.applyReset ∧ (p.edge ch inp).busy = false) ∧
    (inp.rst = false →
      (p.edge ch inp).core = p.core ∨
      ∃ w, (p.inflight = some w ∨
          (p.inflight = none ∧ inp.cmdValid = true ∧ (p.outputs ch).cmdReady = true ∧ w = inp.cmdData)) ∧
        step { p.core with cmd := [w], rst := [] } = .next (p.edge ch inp).core)

/-- R25, R161, R162: `err` and `err_cause` change only at reset or where a command faults; `cmd_ready` is 0 whenever `err`
is 1; `out_valid`, once raised, holds its byte until the transfer. -/
def Obligations.PinsHoldErrAndOfferedBytes : Prop :=
  ∀ (ch ch' : PinChoice) (inp : PinInputs) (p : PinState), p.Inv →
    ((p.outputs ch).err = true → (p.outputs ch).cmdReady = false) ∧
    (inp.rst = false →
      ((p.outputs ch).err = true → ((p.edge ch inp).outputs ch').err = true ∧
        ((p.edge ch inp).outputs ch').errCause = (p.outputs ch).errCause) ∧
      ((p.outputs ch).outValid = true → inp.outReady = false →
        ((p.edge ch inp).outputs ch').outValid = true ∧
        ((p.edge ch inp).outputs ch').outData = (p.outputs ch).outData))
end

