-- ==== Sys2Proof/Laws/Bits.lean ====
section
/-! SUPPORT. The laws of bit sequences (spec/00_scope.md R12), of cutting into pieces, and of the reference packing
(spec/40_reference_codec.md R82). -/

namespace Sys2Proof.Machine

/-! ### `val` and `seq` -/

theorem val_foldl (s : List Bool) (v : Nat) :
    s.foldl (fun v b => 2 * v + b.toNat) v = v * 2 ^ s.length + val s := by
  induction s generalizing v with
  | nil => simp [val]
  | cons b s ih =>
    have h0 := ih (2 * v + b.toNat)
    have h1 := ih (2 * 0 + b.toNat)
    simp only [val, List.foldl_cons, List.length_cons] at *
    rw [h0, h1, pow_succ]
    ring

@[simp] theorem val_nil : val [] = 0 := rfl

theorem val_cons (b : Bool) (s : List Bool) : val (b :: s) = b.toNat * 2 ^ s.length + val s := by
  have h := val_foldl s (2 * 0 + b.toNat)
  simpa [val] using h

theorem val_append (s t : List Bool) : val (s ++ t) = val s * 2 ^ t.length + val t := by
  have h := val_foldl t (val s)
  simpa [val, List.foldl_append] using h

theorem val_lt (s : List Bool) : val s < 2 ^ s.length := by
  induction s with
  | nil => simp
  | cons b s ih =>
    have hb : b.toNat ≤ 1 := Bool.toNat_le b
    rw [val_cons, List.length_cons, pow_succ]
    nlinarith [Nat.mul_le_mul_right (2 ^ s.length) hb]

@[simp] theorem seq_length (n v : Nat) : (seq n v).length = n := by simp [seq]

@[simp] theorem seq_zero (v : Nat) : seq 0 v = [] := rfl

theorem seq_getElem {n v j : Nat} (h : j < (seq n v).length) : (seq n v)[j] = v.testBit (n - 1 - j) := by
  simp [seq]

theorem seq_succ (n v : Nat) : seq (n + 1) v = v.testBit n :: seq n v := by
  apply List.ext_getElem
  · simp
  · intro j h1 h2
    cases j with
    | zero => simp [seq]
    | succ j => simp only [seq_getElem, List.getElem_cons_succ]; congr 1; omega

/-- Joining two words joins their sequences; the upper word may be any number. -/
theorem seq_add (m n a b : Nat) (hb : b < 2 ^ n) : seq (m + n) (a * 2 ^ n + b) = seq m a ++ seq n b := by
  apply List.ext_getElem
  · simp
  · intro j h1 h2
    simp only [seq_length] at h1
    rw [seq_getElem, List.getElem_append]
    rw [mul_comm, Nat.testBit_two_pow_mul_add a hb]
    simp only [seq_length]
    split <;> rename_i hc
    · have : ¬ j < m := by omega
      simp only [this, dite_false, seq_getElem]
      congr 1; omega
    · have : j < m := by omega
      simp only [this, dite_true, seq_getElem]
      congr 1; omega

theorem seq_mod (n v : Nat) : seq n (v % 2 ^ n) = seq n v := by
  apply List.ext_getElem
  · simp
  · intro j h1 h2
    simp only [seq_length] at h1
    simp only [seq_getElem, Nat.testBit_mod_two_pow]
    have : n - 1 - j < n := by omega
    simp [this]

theorem val_seq_mod (n v : Nat) : val (seq n v) = v % 2 ^ n := by
  induction n with
  | zero => simp [Nat.mod_one]
  | succ n ih =>
    rw [seq_succ, val_cons, ih, seq_length, Nat.testBit_eq_decide_div_mod_eq, pow_succ, Nat.mod_mul]
    rcases Nat.mod_two_eq_zero_or_one (v / 2 ^ n) with h | h <;> simp [h]
    omega

theorem val_seq {n v : Nat} (h : v < 2 ^ n) : val (seq n v) = v := by
  rw [val_seq_mod, Nat.mod_eq_of_lt h]

theorem val_injective : ∀ {s t : List Bool}, s.length = t.length → val s = val t → s = t := by
  intro s
  induction s with
  | nil => intro t h _; simpa using h.symm
  | cons b s ih =>
    intro t h hv
    cases t with
    | nil => simp at h
    | cons c t =>
      simp only [List.length_cons, add_left_inj] at h
      rw [val_cons, val_cons, h] at hv
      have hs := val_lt s
      have ht := val_lt t
      rw [h] at hs
      have hbc : b = c := by
        cases b <;> cases c <;> simp at hv ⊢ <;> omega
      subst hbc
      rw [ih h (by omega)]

theorem seq_val (s : List Bool) : seq s.length (val s) = s := by
  apply val_injective (by simp)
  rw [val_seq (val_lt s)]

/-- The first bits of a word are its quotient, the last bits its remainder. -/
theorem seq_split (m n t : Nat) : seq (m + n) t = seq m (t / 2 ^ n) ++ seq n (t % 2 ^ n) := by
  conv_lhs => rw [← Nat.div_add_mod t (2 ^ n), mul_comm]
  rw [seq_add _ _ _ _ (Nat.mod_lt _ (by positivity))]

theorem seq_take {m n : Nat} (h : m ≤ n) (t : Nat) : (seq n t).take m = seq m (t / 2 ^ (n - m)) := by
  obtain ⟨k, rfl⟩ := Nat.exists_eq_add_of_le h
  rw [seq_split, List.take_left' (by simp)]
  simp

theorem seq_drop {m n : Nat} (h : m ≤ n) (t : Nat) : (seq n t).drop m = seq (n - m) (t % 2 ^ (n - m)) := by
  obtain ⟨k, rfl⟩ := Nat.exists_eq_add_of_le h
  rw [seq_split, List.drop_left' (by simp)]
  simp

/-! ### Pieces -/

section
variable {α : Type}

theorem piecesAux_of_le {n : Nat} (hn : 1 ≤ n) :
    ∀ (a b : Nat) (l : List α), l.length ≤ a → l.length ≤ b → piecesAux n a l = piecesAux n b l := by
  intro a
  induction a with
  | zero =>
    intro b l ha _
    have : l = [] := List.length_eq_zero_iff.mp (Nat.le_zero.mp ha)
    subst this
    cases b <;> simp [piecesAux]
  | succ a ih =>
    intro b l ha hb
    cases l with
    | nil => cases b <;> simp [piecesAux]
    | cons x l =>
      cases b with
      | zero => simp at hb
      | succ b =>
        simp only [piecesAux, List.isEmpty_cons, Bool.false_eq_true, if_false]
        congr 1
        apply ih <;> simp at * <;> omega

@[simp] theorem pieces_nil (n : Nat) : pieces n ([] : List α) = [] := rfl

theorem pieces_cons {n : Nat} (hn : 1 ≤ n) {l : List α} (hl : l ≠ []) :
    pieces n l = l.take n :: pieces n (l.drop n) := by
  cases l with
  | nil => exact absurd rfl hl
  | cons x l =>
    simp only [pieces, List.length_cons, piecesAux, List.isEmpty_cons, Bool.false_eq_true, if_false]
    congr 1
    apply piecesAux_of_le hn <;> simp
    omega

theorem pieces_short {n : Nat} (hn : 1 ≤ n) {l : List α} (hl : l ≠ []) (h : l.length ≤ n) : pieces n l = [l] := by
  rw [pieces_cons hn hl, List.take_of_length_le h, List.drop_eq_nil_of_le h, pieces_nil]

theorem pieces_append_full {n : Nat} (hn : 1 ≤ n) {l : List α} (h : l.length = n) (r : List α) :
    pieces n (l ++ r) = l :: pieces n r := by
  have hl : l ++ r ≠ [] := by
    intro e
    have : l = [] := (List.append_eq_nil_iff.mp e).1
    subst this; simp at h; omega
  rw [pieces_cons hn hl, List.take_left' h, List.drop_left' h]

/-- Cutting a list that starts with whole pieces. -/
theorem pieces_append {n : Nat} (hn : 1 ≤ n) :
    ∀ (k : Nat) (l r : List α), l.length = n * k → pieces n (l ++ r) = pieces n l ++ pieces n r := by
  intro k
  induction k with
  | zero =>
    intro l r h
    have : l = [] := List.length_eq_zero_iff.mp (by simpa using h)
    subst this; simp
  | succ k ih =>
    intro l r h
    have hl : n ≤ l.length := by rw [h, Nat.mul_succ]; omega
    have e : l = l.take n ++ l.drop n := (List.take_append_drop n l).symm
    have ht : (l.take n).length = n := by simp [hl]
    have hd : (l.drop n).length = n * k := by simp [h, Nat.mul_succ]
    conv_lhs => rw [e, List.append_assoc, pieces_append_full hn ht, ih _ _ hd]
    conv_rhs => rw [e, pieces_append_full hn ht]
    simp

theorem pieces_flatten {n : Nat} (hn : 1 ≤ n) (l : List α) : (pieces n l).flatten = l := by
  induction h : l.length using Nat.strong_induction_on generalizing l with
  | _ m ih =>
    by_cases hl : l = []
    · subst hl; rfl
    · rw [pieces_cons hn hl, List.flatten_cons]
      have h0 := List.length_pos_iff.mpr hl
      rw [ih (l.drop n).length (by simp; omega) _ rfl, List.take_append_drop]

theorem pieces_mem {n : Nat} (hn : 1 ≤ n) (l : List α) : ∀ p ∈ pieces n l, 1 ≤ p.length ∧ p.length ≤ n := by
  induction h : l.length using Nat.strong_induction_on generalizing l with
  | _ m ih =>
    by_cases hl : l = []
    · subst hl; simp
    · have h0 := List.length_pos_iff.mpr hl
      intro p hp
      rw [pieces_cons hn hl] at hp
      rcases List.mem_cons.mp hp with rfl | hp
      · simp; omega
      · exact ih (l.drop n).length (by simp; omega) _ rfl p hp

theorem pieces_length {n : Nat} (hn : 1 ≤ n) (l : List α) : (pieces n l).length = (l.length + (n - 1)) / n := by
  induction h : l.length using Nat.strong_induction_on generalizing l with
  | _ m ih =>
    by_cases hl : l = []
    · subst hl; simp at h; subst h
      simp [Nat.div_eq_of_lt (show n - 1 < n by omega)]
    · have h0 := List.length_pos_iff.mpr hl
      rw [pieces_cons hn hl, List.length_cons, ih (l.drop n).length (by simp; omega) _ rfl, List.length_drop, h]
      by_cases hm : n ≤ m
      · rw [show m + (n - 1) = (m - n + (n - 1)) + n by omega, Nat.add_div_right _ (by omega)]
      · rw [show m - n = 0 by omega, show m + (n - 1) = (m - 1) + n by omega, Nat.add_div_right _ (by omega),
          Nat.div_eq_of_lt (show 0 + (n - 1) < n by omega), Nat.div_eq_of_lt (show m - 1 < n by omega)]

end

/-! ### The reference packing -/

@[simp] theorem b2b_nil : b2b [] = [] := rfl

theorem b2b_append (s t : List Bool) (h : s.length % 8 = 0) : b2b (s ++ t) = b2b s ++ b2b t := by
  obtain ⟨k, hk⟩ := Nat.dvd_of_mod_eq_zero h
  simp [b2b, pieces_append (by norm_num) k s t hk]

theorem b2b_short {s : List Bool} (h0 : s ≠ []) (h : s.length ≤ 8) : b2b s = [BitVec.ofNat 8 (val s)] := by
  simp [b2b, pieces_short (by norm_num) h0 h]

theorem b2b_length (s : List Bool) : (b2b s).length = (s.length + 7) / 8 := by
  simp [b2b, pieces_length (n := 8) (by norm_num)]

theorem b2b_seq_whole (k u : Nat) :
    b2b (seq (8 * k) u) = (List.range k).map fun i => BitVec.ofNat 8 (u / 2 ^ (8 * (k - 1 - i))) := by
  induction k with
  | zero => rfl
  | succ k ih =>
    rw [show 8 * (k + 1) = 8 + 8 * k by ring, seq_split, b2b_append _ _ (by simp), b2b_short (by simp [seq]) (by simp),
      val_seq_mod, seq_mod, ih, List.range_succ_eq_map, List.map_cons, List.map_map]
    simp only [List.cons_append, List.nil_append, Nat.add_sub_cancel, Nat.sub_zero]
    congr 1
    · apply BitVec.eq_of_toNat_eq; simp
    · apply List.map_congr_left
      intro i hi
      simp only [Function.comp]
      congr 3
      omega

end Sys2Proof.Machine
end

