-- ==== Sys2Proof/Laws/State.lean ====
section
/-! SUPPORT. What each named operation does to each field of the state: one lemma per field per operation, so that no proof
unfolds a record update. -/

namespace Sys2Proof.Machine

variable (s : State)

/-- Two states with equal fields are equal. -/
theorem State.ext_fields {s t : State} (hbuild : s.build = t.build) (hacc : s.acc = t.acc) (hcnt : s.cnt = t.cnt)
    (hsymcnt : s.symcnt = t.symcnt) (htbl : s.tbl = t.tbl) (herr : s.err = t.err) (hcause : s.cause = t.cause)
    (hcmd : s.cmd = t.cmd) (hrst : s.rst = t.rst) (hout : s.out = t.out) : s = t := by
  cases s
  cases t
  simp_all

/-! ### `emit` -/

@[simp] theorem State.emit_build (bs : List Byte) : (s.emit bs).build = s.build := rfl
@[simp] theorem State.emit_acc (bs : List Byte) : (s.emit bs).acc = s.acc := rfl
@[simp] theorem State.emit_cnt (bs : List Byte) : (s.emit bs).cnt = s.cnt := rfl
@[simp] theorem State.emit_symcnt (bs : List Byte) : (s.emit bs).symcnt = s.symcnt := rfl
@[simp] theorem State.emit_tbl (bs : List Byte) : (s.emit bs).tbl = s.tbl := rfl
@[simp] theorem State.emit_err (bs : List Byte) : (s.emit bs).err = s.err := rfl
@[simp] theorem State.emit_cause (bs : List Byte) : (s.emit bs).cause = s.cause := rfl
@[simp] theorem State.emit_cmd (bs : List Byte) : (s.emit bs).cmd = s.cmd := rfl
@[simp] theorem State.emit_rst (bs : List Byte) : (s.emit bs).rst = s.rst := rfl
@[simp] theorem State.emit_out (bs : List Byte) : (s.emit bs).out = s.out ++ bs := rfl

/-! ### `setFlags` -/

@[simp] theorem State.setFlags_build (c : Cause) : (s.setFlags c).build = s.build := rfl
@[simp] theorem State.setFlags_acc (c : Cause) : (s.setFlags c).acc = s.acc := rfl
@[simp] theorem State.setFlags_cnt (c : Cause) : (s.setFlags c).cnt = s.cnt := rfl
@[simp] theorem State.setFlags_symcnt (c : Cause) : (s.setFlags c).symcnt = s.symcnt := rfl
@[simp] theorem State.setFlags_tbl (c : Cause) : (s.setFlags c).tbl = s.tbl := rfl
@[simp] theorem State.setFlags_err (c : Cause) : (s.setFlags c).err = true := rfl
@[simp] theorem State.setFlags_cause (c : Cause) : (s.setFlags c).cause = causeCode c := rfl
@[simp] theorem State.setFlags_cmd (c : Cause) : (s.setFlags c).cmd = s.cmd := rfl
@[simp] theorem State.setFlags_rst (c : Cause) : (s.setFlags c).rst = s.rst := rfl
@[simp] theorem State.setFlags_out (c : Cause) : (s.setFlags c).out = s.out := rfl

/-! ### `raise` -/

@[simp] theorem State.raise_build (c : Cause) : (s.raise c).build = s.build := rfl
@[simp] theorem State.raise_acc (c : Cause) : (s.raise c).acc = s.acc := rfl
@[simp] theorem State.raise_cnt (c : Cause) : (s.raise c).cnt = s.cnt := rfl
@[simp] theorem State.raise_symcnt (c : Cause) : (s.raise c).symcnt = s.symcnt := rfl
@[simp] theorem State.raise_tbl (c : Cause) : (s.raise c).tbl = s.tbl := rfl
@[simp] theorem State.raise_err (c : Cause) : (s.raise c).err = true := rfl
@[simp] theorem State.raise_cause (c : Cause) : (s.raise c).cause = causeCode c := rfl
@[simp] theorem State.raise_cmd (c : Cause) : (s.raise c).cmd = s.cmd := rfl
@[simp] theorem State.raise_rst (c : Cause) : (s.raise c).rst = s.rst := rfl
@[simp] theorem State.raise_out (c : Cause) : (s.raise c).out = s.out := rfl

/-! ### `clearFlags` -/

@[simp] theorem State.clearFlags_build : (s.clearFlags).build = s.build := rfl
@[simp] theorem State.clearFlags_acc : (s.clearFlags).acc = s.acc := rfl
@[simp] theorem State.clearFlags_cnt : (s.clearFlags).cnt = s.cnt := rfl
@[simp] theorem State.clearFlags_symcnt : (s.clearFlags).symcnt = s.symcnt := rfl
@[simp] theorem State.clearFlags_tbl : (s.clearFlags).tbl = s.tbl := rfl
@[simp] theorem State.clearFlags_err : (s.clearFlags).err = false := rfl
@[simp] theorem State.clearFlags_cause : (s.clearFlags).cause = 0 := rfl
@[simp] theorem State.clearFlags_cmd : (s.clearFlags).cmd = s.cmd := rfl
@[simp] theorem State.clearFlags_rst : (s.clearFlags).rst = s.rst := rfl
@[simp] theorem State.clearFlags_out : (s.clearFlags).out = s.out := rfl

/-! ### `storeEntry` -/

@[simp] theorem State.storeEntry_build (sym : Byte) (e : Entry) : (s.storeEntry sym e).build = s.build := rfl
@[simp] theorem State.storeEntry_acc (sym : Byte) (e : Entry) : (s.storeEntry sym e).acc = s.acc := rfl
@[simp] theorem State.storeEntry_cnt (sym : Byte) (e : Entry) : (s.storeEntry sym e).cnt = s.cnt := rfl
@[simp] theorem State.storeEntry_symcnt (sym : Byte) (e : Entry) : (s.storeEntry sym e).symcnt = s.symcnt := rfl
@[simp] theorem State.storeEntry_tbl (sym : Byte) (e : Entry) : (s.storeEntry sym e).tbl = tblWrite s.tbl (tblAddr sym) e := rfl
@[simp] theorem State.storeEntry_err (sym : Byte) (e : Entry) : (s.storeEntry sym e).err = s.err := rfl
@[simp] theorem State.storeEntry_cause (sym : Byte) (e : Entry) : (s.storeEntry sym e).cause = s.cause := rfl
@[simp] theorem State.storeEntry_cmd (sym : Byte) (e : Entry) : (s.storeEntry sym e).cmd = s.cmd := rfl
@[simp] theorem State.storeEntry_rst (sym : Byte) (e : Entry) : (s.storeEntry sym e).rst = s.rst := rfl
@[simp] theorem State.storeEntry_out (sym : Byte) (e : Entry) : (s.storeEntry sym e).out = s.out := rfl

/-! ### `append` -/

@[simp] theorem State.append_build (len code : Nat) : (s.append len code).build = s.build := rfl
@[simp] theorem State.append_acc (len code : Nat) : (s.append len code).acc = BitVec.ofNat 7 ((s.acc.toNat * 2 ^ len + code) % 2 ^ ((s.cnt.toNat + len) % 8)) := rfl
@[simp] theorem State.append_cnt (len code : Nat) : (s.append len code).cnt = BitVec.ofNat 3 ((s.cnt.toNat + len) % 8) := rfl
@[simp] theorem State.append_symcnt (len code : Nat) : (s.append len code).symcnt = s.symcnt := rfl
@[simp] theorem State.append_tbl (len code : Nat) : (s.append len code).tbl = s.tbl := rfl
@[simp] theorem State.append_err (len code : Nat) : (s.append len code).err = s.err := rfl
@[simp] theorem State.append_cause (len code : Nat) : (s.append len code).cause = s.cause := rfl
@[simp] theorem State.append_cmd (len code : Nat) : (s.append len code).cmd = s.cmd := rfl
@[simp] theorem State.append_rst (len code : Nat) : (s.append len code).rst = s.rst := rfl
@[simp] theorem State.append_out (len code : Nat) : (s.append len code).out = s.out ++ wholeBytes (s.acc.toNat * 2 ^ len + code) (s.cnt.toNat + len) := rfl

/-! ### `endChunk` -/

@[simp] theorem State.endChunk_build : (s.endChunk).build = s.build := rfl
@[simp] theorem State.endChunk_acc : (s.endChunk).acc = 0 := rfl
@[simp] theorem State.endChunk_cnt : (s.endChunk).cnt = 0 := rfl
@[simp] theorem State.endChunk_symcnt : (s.endChunk).symcnt = 0 := rfl
@[simp] theorem State.endChunk_tbl : (s.endChunk).tbl = s.tbl := rfl
@[simp] theorem State.endChunk_err : (s.endChunk).err = s.err := rfl
@[simp] theorem State.endChunk_cause : (s.endChunk).cause = s.cause := rfl
@[simp] theorem State.endChunk_cmd : (s.endChunk).cmd = s.cmd := rfl
@[simp] theorem State.endChunk_rst : (s.endChunk).rst = s.rst := rfl
@[simp] theorem State.endChunk_out : (s.endChunk).out = s.out ++ (if s.cnt.toNat > 0 then [s.acc.setWidth 8] else []) := rfl

/-! ### `applyReset` -/

@[simp] theorem State.applyReset_build : (s.applyReset).build = s.build := rfl
@[simp] theorem State.applyReset_acc : (s.applyReset).acc = 0 := rfl
@[simp] theorem State.applyReset_cnt : (s.applyReset).cnt = 0 := rfl
@[simp] theorem State.applyReset_symcnt : (s.applyReset).symcnt = 0 := rfl
@[simp] theorem State.applyReset_tbl : (s.applyReset).tbl = s.build.tblReset := rfl
@[simp] theorem State.applyReset_err : (s.applyReset).err = false := rfl
@[simp] theorem State.applyReset_cause : (s.applyReset).cause = 0 := rfl
@[simp] theorem State.applyReset_cmd : (s.applyReset).cmd = s.cmd := rfl
@[simp] theorem State.applyReset_rst : (s.applyReset).rst = s.rst := rfl
@[simp] theorem State.applyReset_out : (s.applyReset).out = s.out := rfl

/-! ### `present` -/

@[simp] theorem State.present_build (w : Record) : (s.present w).build = s.build := rfl
@[simp] theorem State.present_acc (w : Record) : (s.present w).acc = s.acc := rfl
@[simp] theorem State.present_cnt (w : Record) : (s.present w).cnt = s.cnt := rfl
@[simp] theorem State.present_symcnt (w : Record) : (s.present w).symcnt = s.symcnt := rfl
@[simp] theorem State.present_tbl (w : Record) : (s.present w).tbl = s.tbl := rfl
@[simp] theorem State.present_err (w : Record) : (s.present w).err = false := rfl
@[simp] theorem State.present_cause (w : Record) : (s.present w).cause = 0 := rfl
@[simp] theorem State.present_cmd (w : Record) : (s.present w).cmd = w :: s.cmd := rfl
@[simp] theorem State.present_rst (w : Record) : (s.present w).rst = [] := rfl
@[simp] theorem State.present_out (w : Record) : (s.present w).out = s.out := rfl

/-! ### `countSymbol`: both cases, then the fields that do not depend on the case -/

theorem State.countSymbol_last (h : s.symcnt = s.build.chunkSymbols - 1) : s.countSymbol = s.endChunk := by
  simp [State.countSymbol, h]

theorem State.countSymbol_more (h : s.symcnt ≠ s.build.chunkSymbols - 1) :
    s.countSymbol = { s with symcnt := s.symcnt + 1 } := by
  simp [State.countSymbol, h]

@[simp] theorem State.countSymbol_build : s.countSymbol.build = s.build := by
  unfold State.countSymbol; split <;> rfl
@[simp] theorem State.countSymbol_tbl : s.countSymbol.tbl = s.tbl := by
  unfold State.countSymbol; split <;> rfl
@[simp] theorem State.countSymbol_err : s.countSymbol.err = s.err := by
  unfold State.countSymbol; split <;> rfl
@[simp] theorem State.countSymbol_cause : s.countSymbol.cause = s.cause := by
  unfold State.countSymbol; split <;> rfl
@[simp] theorem State.countSymbol_cmd : s.countSymbol.cmd = s.cmd := by
  unfold State.countSymbol; split <;> rfl
@[simp] theorem State.countSymbol_rst : s.countSymbol.rst = s.rst := by
  unfold State.countSymbol; split <;> rfl

end Sys2Proof.Machine
end

