-- ==== Sys2Proof/Laws/Ops.lean ====
section
/-! SUPPORT. One spec lemma for each shared operation: the table's reads and writes (spec/20_memory.md R41, R42), the packer's
append and flush in terms of bit sequences (spec/41_pack_flush.md R91, R93), and the invariant each keeps. -/

namespace Sys2Proof.Machine

/-! ### The table -/

theorem tblRead_insert (m : Memory) (a a' : Nat) (e : Entry) :
    tblRead (tblInsert m a e) a' = if a = a' then e else tblRead m a' := by
  induction m with
  | nil => simp [tblInsert, tblRead]
  | cons p m ih =>
    obtain ⟨k, d⟩ := p
    simp only [tblInsert]
    split
    · simp only [tblRead, ih]
      split <;> split <;> first | rfl | omega
    · split <;> rename_i hk
      · subst hk
        simp only [tblRead]
        split <;> rfl
      · rfl

theorem tblInsert_keys (m : Memory) (a : Nat) (e : Entry) (p : Nat × Entry) (hp : p ∈ tblInsert m a e) :
    p = (a, e) ∨ p ∈ m := by
  induction m with
  | nil => simpa [tblInsert] using hp
  | cons q m ih =>
    obtain ⟨k, d⟩ := q
    simp only [tblInsert] at hp
    split at hp
    · rcases List.mem_cons.mp hp with rfl | hp
      · exact .inr (by simp)
      · rcases ih hp with h | h
        · exact .inl h
        · exact .inr (by simp [h])
    · split at hp
      · rcases List.mem_cons.mp hp with h | h
        · exact .inl h
        · exact .inr (by simp [h])
      · rcases List.mem_cons.mp hp with h | h
        · exact .inl h
        · exact .inr h

theorem tblInsert_wf {m : Memory} (h : Memory.wf m) {a : Nat} (ha : a < 256) {e : Entry} (he : e ≠ Memory.unlisted) :
    Memory.wf (tblInsert m a e) := by
  refine ⟨?_, fun p hp => ?_⟩
  · have hs := h.1
    clear h
    induction m with
    | nil => simp [tblInsert]
    | cons p m ih =>
      obtain ⟨k, d⟩ := p
      simp only [List.map_cons, List.pairwise_cons] at hs
      simp only [tblInsert]
      split <;> rename_i hk
      · simp only [List.map_cons, List.pairwise_cons]
        refine ⟨fun b hb => ?_, ih hs.2⟩
        obtain ⟨q, hq, rfl⟩ := List.mem_map.mp hb
        rcases tblInsert_keys _ _ _ _ hq with rfl | hq
        · exact hk
        · exact hs.1 _ (List.mem_map_of_mem hq)
      · split <;> rename_i hk'
        · subst hk'
          simpa using hs
        · simp only [List.map_cons, List.pairwise_cons]
          refine ⟨fun b hb => ?_, hs⟩
          rcases List.mem_cons.mp hb with rfl | hb
          · omega
          · have := hs.1 _ hb; omega
  · rcases tblInsert_keys _ _ _ _ hp with rfl | hp
    · exact ⟨ha, he⟩
    · exact h.2 _ hp

theorem tblErase_sublist (m : Memory) (a : Nat) : (tblErase m a).Sublist m := by
  induction m with
  | nil => exact List.Sublist.slnil
  | cons p m ih =>
    obtain ⟨k, d⟩ := p
    simp only [tblErase]
    split
    · exact ih.cons_cons _
    · split
      · exact List.sublist_cons_self _ _
      · exact List.Sublist.refl _

theorem tblErase_wf {m : Memory} (h : Memory.wf m) (a : Nat) : Memory.wf (tblErase m a) :=
  ⟨h.1.sublist ((tblErase_sublist m a).map _), fun p hp => h.2 p ((tblErase_sublist m a).subset hp)⟩

theorem tblRead_of_lt_all {m : Memory} {a : Nat} (h : ∀ k ∈ m.map Prod.fst, a < k) : tblRead m a = Memory.unlisted := by
  induction m with
  | nil => rfl
  | cons p m ih =>
    obtain ⟨k, d⟩ := p
    simp only [List.map_cons, List.mem_cons, forall_eq_or_imp] at h
    have : k ≠ a := by omega
    simp [tblRead, this, ih h.2]

theorem tblRead_erase {m : Memory} (h : (m.map Prod.fst).Pairwise (· < ·)) (a a' : Nat) :
    tblRead (tblErase m a) a' = if a = a' then Memory.unlisted else tblRead m a' := by
  induction m with
  | nil => simp [tblErase, tblRead]
  | cons p m ih =>
    obtain ⟨k, d⟩ := p
    simp only [List.map_cons, List.pairwise_cons] at h
    simp only [tblErase]
    split <;> rename_i hk
    · simp only [tblRead, ih h.2]
      split <;> split <;> first | rfl | omega
    · split <;> rename_i hk'
      · subst hk'
        split <;> rename_i ha
        · subst ha
          exact tblRead_of_lt_all h.1
        · simp [tblRead, ha]
      · split <;> rename_i ha
        · subst ha
          have : ∀ b ∈ ((k, d) :: m).map Prod.fst, a < b := by
            intro b hb
            rcases List.mem_cons.mp hb with rfl | hb
            · omega
            · have := h.1 _ hb; omega
          exact tblRead_of_lt_all this
        · rfl

/-- R42 for a canonical table: the written entry reads back, every other reads as before. -/
theorem tblRead_write {m : Memory} (h : (m.map Prod.fst).Pairwise (· < ·)) (a a' : Nat) (e : Entry) :
    tblRead (tblWrite m a e) a' = if a = a' then e else tblRead m a' := by
  unfold tblWrite
  split <;> rename_i he
  · rw [tblRead_erase h, he]
  · rw [tblRead_insert]

theorem tblWrite_wf {m : Memory} (h : Memory.wf m) {a : Nat} (ha : a < 256) (e : Entry) : Memory.wf (tblWrite m a e) := by
  unfold tblWrite
  split <;> rename_i he
  · exact tblErase_wf h a
  · exact tblInsert_wf h ha he

@[simp] theorem codeEntry_ne_unlisted (len : Byte) (code : CodeWord) : codeEntry len code ≠ Memory.unlisted := by
  simp [codeEntry, Memory.unlisted]

/-- The write of `LDT`, in any table: a valid entry is inserted. -/
theorem tblWrite_codeEntry (m : Memory) (a : Nat) (len : Byte) (code : CodeWord) :
    tblWrite m a (codeEntry len code) = tblInsert m a (codeEntry len code) := by
  simp [tblWrite]

theorem tblAddr_lt (sym : Byte) : tblAddr sym < 256 := sym.isLt

theorem tblAddr_inj {a b : Byte} : tblAddr a = tblAddr b ↔ a = b :=
  ⟨fun h => BitVec.eq_of_toNat_eq h, fun h => h ▸ rfl⟩

/-- What `LDT`'s write makes of every symbol's entry, in any state. -/
theorem storeEntry_entry (s : State) (a b : Byte) (len : Byte) (code : CodeWord) :
    (s.storeEntry a (codeEntry len code)).entry b = if a = b then codeEntry len code else s.entry b := by
  simp [State.entry, tblWrite_codeEntry, tblRead_insert, tblAddr_inj]

/-- Any entry that a list of legal entries reads as is legal. -/
theorem tblRead_legal {m : Memory} {lMax : Nat} (h : ∀ p ∈ m, p.2.legal lMax) (a : Nat) : (tblRead m a).legal lMax := by
  induction m with
  | nil => intro hv; simp [tblRead, Memory.unlisted] at hv
  | cons p m ih =>
    obtain ⟨k, d⟩ := p
    simp only [tblRead]
    split
    · exact h (k, d) (by simp)
    · exact ih fun p hp => h p (by simp [hp])

theorem entry_legal {s : State} (h : s.entriesLegal) (sym : Byte) : (s.entry sym).legal s.build.lMax := tblRead_legal h _

theorem entryCode_eq_some {e : Entry} {c : List Bool} (h : entryCode e = some c) :
    e.v = true ∧ c = seq e.len.toNat e.code.toNat := by
  unfold entryCode at h
  cases hv : e.v with
  | false => simp [hv] at h
  | true => simpa [hv, eq_comm] using h

/-! ### The packer -/

theorem wholeBytes_eq_b2b (t n : Nat) : wholeBytes t n = b2b ((seq n t).take (8 * (n / 8))) := by
  have hle : 8 * (n / 8) ≤ n := Nat.mul_div_le n 8
  rw [seq_take hle, b2b_seq_whole]
  apply List.map_congr_left
  intro i hi
  rw [List.mem_range] at hi
  rw [Nat.div_div_eq_div_mul, ← pow_add]
  congr 3
  omega

@[simp] theorem wholeBytes_length (t n : Nat) : (wholeBytes t n).length = n / 8 := by simp [wholeBytes]

/-- The bytes of R91's pseudocode, with its explicit `mod 256`. -/
theorem wholeBytes_mod (t n : Nat) :
    wholeBytes t n = (List.range (n / 8)).map fun i => BitVec.ofNat 8 (t / 2 ^ (n - 8 * (i + 1)) % 256) := by
  apply List.map_congr_left
  intro i _
  apply BitVec.eq_of_toNat_eq
  simp

theorem append_cnt_toNat (s : State) (len code : Nat) : (s.append len code).cnt.toNat = (s.cnt.toNat + len) % 8 := by
  simp

theorem append_acc_toNat (s : State) (len code : Nat) :
    (s.append len code).acc.toNat = (s.acc.toNat * 2 ^ len + code) % 2 ^ ((s.cnt.toNat + len) % 8) := by
  have hr : (s.cnt.toNat + len) % 8 ≤ 7 := by omega
  have h1 : 2 ^ ((s.cnt.toNat + len) % 8) ≤ 2 ^ 7 := Nat.pow_le_pow_right (by norm_num) hr
  have h2 := Nat.mod_lt (s.acc.toNat * 2 ^ len + code) (show 0 < 2 ^ ((s.cnt.toNat + len) % 8) by positivity)
  simp only [State.append_acc, BitVec.toNat_ofNat]
  exact Nat.mod_eq_of_lt (by omega)

/-- `append` in terms of bit sequences (R21, R88, R91): the whole runs of the joined bits are emitted by the reference
packing, the rest is pending. -/
theorem append_spec (s : State) (len code : Nat) (hc : code < 2 ^ len) :
    (s.append len code).out = s.out ++
      b2b ((s.res ++ seq len code).take (8 * ((s.cnt.toNat + len) / 8))) ∧
    (s.append len code).res = (s.res ++ seq len code).drop (8 * ((s.cnt.toNat + len) / 8)) := by
  have hj : s.res ++ seq len code = seq (s.cnt.toNat + len) (s.acc.toNat * 2 ^ len + code) :=
    (seq_add _ _ _ _ hc).symm
  have hle : 8 * ((s.cnt.toNat + len) / 8) ≤ s.cnt.toNat + len := Nat.mul_div_le _ 8
  have hr : s.cnt.toNat + len - 8 * ((s.cnt.toNat + len) / 8) = (s.cnt.toNat + len) % 8 := by omega
  rw [hj]
  refine ⟨by simp [wholeBytes_eq_b2b], ?_⟩
  rw [seq_drop hle, hr, State.res, append_cnt_toNat, append_acc_toNat]

/-- `t` comes from `s` by appending `bits` to the chunk (R21, R88): the whole runs of the joined bits have been emitted by
the reference packing, the rest is pending. -/
def Appends (s t : State) (bits : List Bool) : Prop :=
  t.out = s.out ++ b2b ((s.res ++ bits).take (8 * ((s.res ++ bits).length / 8))) ∧
    t.res = (s.res ++ bits).drop (8 * ((s.res ++ bits).length / 8))

theorem append_residualWf (s : State) (len code : Nat) : (s.append len code).residualWf := by
  unfold State.residualWf
  rw [append_cnt_toNat, append_acc_toNat]
  exact Nat.mod_lt _ (by positivity)

@[simp] theorem res_length (s : State) : s.res.length = s.cnt.toNat := by simp [State.res]

theorem append_appends (s : State) (len code : Nat) (hc : code < 2 ^ len) :
    Appends s (s.append len code) (seq len code) := by
  have h := append_spec s len code hc
  simpa [Appends] using h

theorem Appends.refl (s : State) : Appends s s [] := by
  have h : s.cnt.toNat / 8 = 0 := Nat.div_eq_of_lt s.cnt.isLt
  simp [Appends, h]

/-- Appending twice is appending the joined bits (R92: splitting is invisible). -/
theorem Appends.trans {s t u : State} {a b : List Bool} (h1 : Appends s t a) (h2 : Appends t u b) :
    Appends s u (a ++ b) := by
  obtain ⟨o1, r1⟩ := h1
  obtain ⟨o2, r2⟩ := h2
  set x := s.res ++ a with hx
  have hk : 8 * (x.length / 8) ≤ x.length := Nat.mul_div_le _ 8
  have hl : t.res.length = x.length - 8 * (x.length / 8) := by rw [r1, List.length_drop]
  have key : 8 * ((x ++ b).length / 8) = 8 * (x.length / 8) + 8 * ((t.res ++ b).length / 8) := by
    simp only [List.length_append, hl]
    omega
  have hd : (x ++ b).drop (8 * (x.length / 8)) = t.res ++ b := by rw [List.drop_append_of_le_length hk, r1]
  unfold Appends
  rw [← List.append_assoc, ← hx, key]
  constructor
  · rw [List.take_add, hd, List.take_append_of_le_length hk, b2b_append, o2, o1, List.append_assoc]
    rw [List.length_take, Nat.min_eq_left hk]
    omega
  · rw [← List.drop_drop, hd, r2]

/-- `endChunk` in terms of bit sequences (R93, R94): what it emits is the reference packing of the pending bits. -/
theorem endChunk_spec (s : State) (h : s.residualWf) :
    s.endChunk.out = s.out ++ b2b s.res ∧ s.endChunk.res = [] := by
  refine ⟨?_, rfl⟩
  have hlt := s.cnt.isLt
  rw [State.endChunk_out]
  split <;> rename_i hc
  · have hne : s.res ≠ [] := by
      intro e
      have := congrArg List.length e
      simp at this
      simp [this] at hc
    rw [b2b_short hne (by simp; omega), State.res, val_seq h]
    congr 2
    apply BitVec.eq_of_toNat_eq
    simp
  · have : s.cnt.toNat = 0 := by omega
    have : s.res = [] := List.length_eq_zero_iff.mp (by simp [this])
    rw [this]
    simp

/-- Ending the chunk after appending `bits`: all that was pending and appended comes out by the reference packing. -/
theorem Appends.endChunk {s t : State} {bits : List Bool} (h : Appends s t bits) (ht : t.residualWf) :
    t.endChunk.out = s.out ++ b2b (s.res ++ bits) := by
  have he := (endChunk_spec t ht).1
  rw [he, h.1, h.2, List.append_assoc, ← b2b_append, List.take_append_drop]
  rw [List.length_take, Nat.min_eq_left (Nat.mul_div_le _ 8)]
  omega

theorem endChunk_residualWf (s : State) : s.endChunk.residualWf := by simp [State.residualWf]

/-- The residual is determined by the pending sequence (R33). -/
theorem cnt_acc_of_res {s t : State} (hs : s.residualWf) (ht : t.residualWf) (h : s.res = t.res) :
    s.cnt = t.cnt ∧ s.acc = t.acc := by
  have hl : s.cnt.toNat = t.cnt.toNat := by simpa using congrArg List.length h
  have hv := congrArg val h
  rw [State.res, State.res, val_seq hs, val_seq ht] at hv
  exact ⟨BitVec.eq_of_toNat_eq hl, BitVec.eq_of_toNat_eq hv⟩

theorem countSymbol_residualWf (s : State) (h : s.residualWf) : s.countSymbol.residualWf := by
  unfold State.countSymbol
  split
  · exact endChunk_residualWf s
  · exact h

end Sys2Proof.Machine
end

