-- ==== Sys2Proof/Laws/Step.lean ====
section
/-! SUPPORT. Everything a command, and then a step, can do: one inversion lemma for `exec` and one for `step`, from which the
invariants of every step follow. -/

namespace Sys2Proof.Machine

/-- The outcome of a command as a state: every command has one (R66, R67). -/
def execState : Instr → State → State
  | .pack f, s => if packLegal s.build f then s.append f.len.toNat f.code.toNat else s.raise .illegalOperand
  | .flush f, s => if flushLegal f then s.endChunk else s.raise .illegalOperand
  | .ldt f, s =>
    if s.build.tblWritable then
      (if ldtLegal s.build f then s.storeEntry f.sym (codeEntry f.len f.code) else s.raise .illegalOperand)
    else s.raise .illegalOpcode
  | .put f, s => if putLegal f then s.putSymbol f.sym else s.raise .illegalOperand
  | .reserved0 _, s => s.raise .illegalOpcode
  | .reserved5 _, s => s.raise .illegalOpcode
  | .reserved67 _ _, s => s.raise .illegalOpcode
  | .reserved8F _ _, s => s.raise .illegalOpcode

theorem exec_eq (i : Instr) (s : State) : exec i s = .next (execState i s) := by cases i <;> rfl

/-- Everything a command can do: a packer append of a code that fits the build, a flush, an append and a count of the code
an entry holds, one entry stored in a loadable build, or a fault entry. -/
theorem exec_cases {i : Instr} {s t : State} (h : exec i s = .next t) :
    (∃ c, t = s.raise c) ∨
    (∃ f, i = .pack f ∧ packLegal s.build f = true ∧ t = s.append f.len.toNat f.code.toNat) ∨
    (∃ f, i = .flush f ∧ flushLegal f = true ∧ t = s.endChunk) ∨
    (∃ f, i = .ldt f ∧ s.build.tblWritable = true ∧ ldtLegal s.build f = true ∧
      t = s.storeEntry f.sym (codeEntry f.len f.code)) ∨
    (∃ f, i = .put f ∧ putLegal f = true ∧ (s.entry f.sym).v = true ∧
      t = (s.append (s.entry f.sym).len.toNat (s.entry f.sym).code.toNat).countSymbol) := by
  rw [exec_eq] at h
  simp only [Host.Outcome.next.injEq] at h
  subst h
  cases i with
  | pack f =>
    by_cases hl : packLegal s.build f = true
    · exact .inr (.inl ⟨f, rfl, hl, by simp [execState, hl]⟩)
    · exact .inl ⟨.illegalOperand, by simp [execState, hl]⟩
  | flush f =>
    by_cases hl : flushLegal f = true
    · exact .inr (.inr (.inl ⟨f, rfl, hl, by simp [execState, hl]⟩))
    · exact .inl ⟨.illegalOperand, by simp [execState, hl]⟩
  | ldt f =>
    by_cases hw : s.build.tblWritable = true
    · by_cases hl : ldtLegal s.build f = true
      · exact .inr (.inr (.inr (.inl ⟨f, rfl, hw, hl, by simp [execState, hw, hl]⟩)))
      · exact .inl ⟨.illegalOperand, by simp [execState, hw, hl]⟩
    · exact .inl ⟨.illegalOpcode, by simp [execState, hw]⟩
  | put f =>
    by_cases hl : putLegal f = true
    · by_cases hv : (s.entry f.sym).v = true
      · exact .inr (.inr (.inr (.inr ⟨f, rfl, hl, hv, by simp [execState, hl, State.putSymbol, hv]⟩)))
      · exact .inl ⟨.noCode, by simp [execState, hl, State.putSymbol, hv]⟩
    · exact .inl ⟨.illegalOperand, by simp [execState, hl]⟩
  | reserved0 f => exact .inl ⟨.illegalOpcode, rfl⟩
  | reserved5 f => exact .inl ⟨.illegalOpcode, rfl⟩
  | reserved67 a f => exact .inl ⟨.illegalOpcode, rfl⟩
  | reserved8F a f => exact .inl ⟨.illegalOpcode, rfl⟩

/-- Everything a step can do: reset, wait, or run the command of the front record with the record taken from the
channel. -/
theorem step_cases {s t : State} (h : step s = .next t) :
    (∃ later, s.rst = true :: later ∧ t = { s.applyReset with rst := later }) ∨
    (s.resetLow ∧ t = { s with rst := s.rst.tail }) ∨
    (s.resetLow ∧ s.err = false ∧ ∃ w later, s.cmd = w :: later ∧
      exec (decode w) { s with cmd := later, rst := s.rst.tail } = .next t) := by
  unfold step State.next at h
  split at h <;> rename_i hn
  · split at hn
    · rename_i later hr
      simp only [Event.reset.injEq, Host.Outcome.next.injEq] at hn h
      exact .inl ⟨later, hr, by rw [← h, ← hn]⟩
    · split at hn <;> (try split at hn) <;> simp at hn
  · split at hn
    · simp at hn
    · rename_i hr
      have hlow : s.resetLow := by
        intro e
        cases hs : s.rst with
        | nil => simp [hs] at e
        | cons b later =>
          rw [hs] at e
          simp only [List.head?_cons, Option.some.injEq] at e
          exact hr later (e ▸ hs)
      simp only [Host.Outcome.next.injEq] at h
      refine .inr (.inl ⟨hlow, ?_⟩)
      split at hn <;> split at hn <;> simp at hn <;> rw [← h, ← hn]
  · simp at h
  · split at hn
    · simp at hn
    · rename_i hr
      have hlow : s.resetLow := by
        intro e
        cases hs : s.rst with
        | nil => simp [hs] at e
        | cons b later =>
          rw [hs] at e
          simp only [List.head?_cons, Option.some.injEq] at e
          exact hr later (e ▸ hs)
      split at hn <;> rename_i he
      · split at hn <;> simp at hn
      · split at hn <;> rename_i hc
        · simp at hn
        · simp only [Event.accept.injEq] at hn
          obtain ⟨rfl, rfl⟩ := hn
          exact .inr (.inr ⟨hlow, by simpa using he, _, _, hc, h⟩)

/-- What the block does with reset low: the match on the reset line is decided. -/
theorem next_of_resetLow {s : State} (h : s.resetLow) :
    s.next = if s.err then (if s.rst.tail.any id then .wait { s with rst := s.rst.tail } else .halted)
      else match s.cmd with
        | [] => .wait { s with rst := s.rst.tail }
        | w :: later => .accept w { s with cmd := later, rst := s.rst.tail } := by
  unfold State.next
  split
  · rename_i later hr
    exact absurd (by rw [hr]; rfl) h
  · rfl

end Sys2Proof.Machine
end

