-- ==== Sys2Proof/Laws/Encoding.lean ====
section
/-! SUPPORT. Records and their fields (spec/30_encoding.md R60, R61, R69): the fields of a record read back, a record is made of
its fields, and the numeric fields `recOp`, `recSym`, `recLen`, `recCode` are what the decoder reads. -/

namespace Sys2Proof.Machine

theorem bitVec_eq_zero_iff {n : Nat} (x : BitVec n) : x = 0 ↔ x.toNat = 0 :=
  ⟨fun h => by rw [h]; simp, fun h => BitVec.eq_of_toNat_eq (by simpa using h)⟩

@[simp] theorem fieldsOf_recordOf (op : BitVec 4) (f : Fields) : fieldsOf (recordOf op f) = f := by
  obtain ⟨sym, len, code⟩ := f
  simp only [fieldsOf, recordOf, Fields.mk.injEq]
  refine ⟨?_, ?_, ?_⟩
  all_goals
    apply BitVec.eq_of_getLsbD_eq
    intro i hi
    simp only [BitVec.getLsbD_extractLsb', BitVec.getLsbD_append]
  · have h1 : ¬ (4 + i < 4) := by omega
    have h3 : 4 + i - 4 = i := by omega
    simp only [hi, h1, h3, if_true, if_false, decide_true, Bool.true_and]
  · have h1 : ¬ (12 + i < 4) := by omega
    have h2 : ¬ (12 + i - 4 < 8) := by omega
    have h4 : 12 + i - 4 - 8 = i := by omega
    simp only [hi, h1, h2, h4, if_true, if_false, decide_true, Bool.true_and]
  · have h1 : ¬ (20 + i < 4) := by omega
    have h2 : ¬ (20 + i - 4 < 8) := by omega
    have h3 : ¬ (20 + i - 4 - 8 < 8) := by omega
    have h4 : 20 + i - 4 - 8 - 8 = i := by omega
    simp only [hi, h1, h2, h3, h4, if_false, decide_true, Bool.true_and]

@[simp] theorem opOf_recordOf (op : BitVec 4) (f : Fields) : opOf (recordOf op f) = op := by
  apply BitVec.eq_of_getLsbD_eq
  intro i hi
  simp only [opOf, recordOf, BitVec.getLsbD_extractLsb', BitVec.getLsbD_append]
  simp [hi]

/-- The open opcode bits of the last reserved row are the low three bits of the record. -/
@[simp] theorem lowBits_recordOf (low : BitVec 3) (f : Fields) : (recordOf (0b1#1 ++ low) f).extractLsb' 0 3 = low := by
  apply BitVec.eq_of_getLsbD_eq
  intro i hi
  simp only [recordOf, BitVec.getLsbD_extractLsb', BitVec.getLsbD_append]
  have h2 : i < 4 := by omega
  simp [hi, h2]

theorem recordOf_fieldsOf (w : Record) : recordOf (opOf w) (fieldsOf w) = w := by
  apply BitVec.eq_of_getLsbD_eq
  intro i hi
  simp only [recordOf, opOf, fieldsOf, BitVec.getLsbD_append, BitVec.getLsbD_extractLsb']
  by_cases h1 : i < 4
  · simp [h1]
  · by_cases h2 : i - 4 < 8
    · simp only [h1, h2, if_true, if_false, decide_true, Bool.true_and]
      congr 1; omega
    · by_cases h3 : i - 4 - 8 < 8
      · simp only [h1, h2, h3, if_true, if_false, decide_true, Bool.true_and]
        congr 1; omega
      · have h4 : i - 4 - 8 - 8 < 255 := by omega
        simp only [h1, h2, h3, h4, if_false, decide_true, Bool.true_and]
        congr 1; omega

theorem opOf_toNat (w : Record) : (opOf w).toNat = recOp w := by
  simp [opOf, recOp]

theorem recOp_lt (w : Record) : recOp w < 16 := Nat.mod_lt _ (by norm_num)

theorem fieldsOf_sym (w : Record) : (fieldsOf w).sym.toNat = recSym w := by
  simp [fieldsOf, recSym, Nat.shiftRight_eq_div_pow]

theorem fieldsOf_len (w : Record) : (fieldsOf w).len.toNat = recLen w := by
  simp [fieldsOf, recLen, Nat.shiftRight_eq_div_pow]

set_option exponentiation.threshold 300 in
theorem recCode_lt (w : Record) : recCode w < 2 ^ 255 := by
  have h := w.isLt
  have e : (2 : Nat) ^ 275 = 2 ^ 255 * 1048576 := by rw [show 275 = 255 + 20 from rfl, pow_add]; norm_num
  rw [e] at h
  exact Nat.div_lt_of_lt_mul (by rw [mul_comm]; exact h)

theorem fieldsOf_code (w : Record) : (fieldsOf w).code.toNat = recCode w := by
  have h := recCode_lt w
  simp only [fieldsOf, recCode, Nat.shiftRight_eq_div_pow, BitVec.extractLsb'_toNat] at *
  exact Nat.mod_eq_of_lt h

theorem fieldsOf_eq (w : Record) : fieldsOf w =
    { sym := BitVec.ofNat 8 (recSym w), len := BitVec.ofNat 8 (recLen w), code := BitVec.ofNat 255 (recCode w) } := by
  simp [← fieldsOf_sym, ← fieldsOf_len, ← fieldsOf_code]

/-- `decode` by the opcode as a number. -/
theorem decode_eq (w : Record) : decode w = match recOp w with
    | 0 => .reserved0 (fieldsOf w)
    | 1 => .pack (fieldsOf w)
    | 2 => .flush (fieldsOf w)
    | 3 => .ldt (fieldsOf w)
    | 4 => .put (fieldsOf w)
    | 5 => .reserved5 (fieldsOf w)
    | 6 => .reserved67 0 (fieldsOf w)
    | 7 => .reserved67 1 (fieldsOf w)
    | _ => .reserved8F (w.extractLsb' 0 3) (fieldsOf w) := by
  rw [← opOf_toNat]
  rfl

/-- What a command does, given its verdict: a fault entry, or the effect of a legal command. -/
theorem execState_of_verdict (i : Instr) (s : State) :
    match i.verdict s.build with
    | .illegalOpcode => execState i s = s.raise .illegalOpcode
    | .illegalOperand => execState i s = s.raise .illegalOperand
    | .command j => j = i ∧ execState i s =
      match i with
      | .pack f => s.append f.len.toNat f.code.toNat
      | .flush _ => s.endChunk
      | .ldt f => s.storeEntry f.sym (codeEntry f.len f.code)
      | .put f => s.putSymbol f.sym
      | _ => s := by
  cases i with
  | pack f => by_cases h : packLegal s.build f = true <;> simp [Instr.verdict, judge, execState, h]
  | flush f => by_cases h : flushLegal f = true <;> simp [Instr.verdict, judge, execState, h]
  | ldt f =>
    by_cases hw : s.build.tblWritable = true <;> by_cases h : ldtLegal s.build f = true <;>
      simp [Instr.verdict, judge, execState, h, hw]
  | put f => by_cases h : putLegal f = true <;> simp [Instr.verdict, judge, execState, h]
  | reserved0 f => rfl
  | reserved5 f => rfl
  | reserved67 a f => rfl
  | reserved8F a f => rfl

end Sys2Proof.Machine
end

