-- ==== Sys2Proof/Laws/HostTable.lean ====
section
/-! SUPPORT. The greedy merge of the host's builder (spec/43_table_construction.md R114, R119): what a merge does to the
symbols and the weight, and the exchange argument by which merging two lightest weights costs nothing, stated for any
lengths that meet the Kraft inequality. -/

namespace Sys2Proof.Machine

/-! ### What a merge and the walk give -/

@[simp] theorem TieBreak.merge_freq (tie : TieBreak) (x y : HuffmanNode) : (tie.merge x y).freq = x.freq + y.freq := by
  unfold TieBreak.merge
  split <;> rfl

theorem TieBreak.merge_symbols (tie : TieBreak) (x y : HuffmanNode) :
    (tie.merge x y).symbols.Perm (x.symbols ++ y.symbols) := by
  unfold TieBreak.merge
  split
  · exact List.perm_append_comm
  · exact List.Perm.refl _

theorem walkCodes_symbols (n : HuffmanNode) : ∀ path, (walkCodes path n).map Prod.fst = n.symbols := by
  induction n with
  | leaf f s => intro path; rfl
  | internal f l r ihl ihr => intro path; simp [walkCodes, HuffmanNode.symbols, ihl, ihr]

theorem assignCodes_symbols (bit : Bool) (n : HuffmanNode) : (assignCodes bit n).map Prod.fst = n.symbols := by
  cases n with
  | leaf f s => rfl
  | internal f l r => exact walkCodes_symbols _ _

/-! ### Weights at depths -/

/-- The cost of weights at depths: the sum of `weight * depth`. -/
def depthCost (L : List (Nat × Nat)) : Nat := (L.map fun p => p.1 * p.2).sum

/-- The Kraft sum of weights at depths. -/
def kraftSum (L : List (Nat × Nat)) : ℚ := (L.map fun p => (1 / 2 : ℚ) ^ p.2).sum

@[simp] theorem depthCost_nil : depthCost [] = 0 := rfl
@[simp] theorem depthCost_cons (p : Nat × Nat) (L : List (Nat × Nat)) : depthCost (p :: L) = p.1 * p.2 + depthCost L := by
  simp [depthCost]
@[simp] theorem kraftSum_nil : kraftSum [] = 0 := rfl
@[simp] theorem kraftSum_cons (p : Nat × Nat) (L : List (Nat × Nat)) :
    kraftSum (p :: L) = (1 / 2) ^ p.2 + kraftSum L := by
  simp [kraftSum]

theorem depthCost_perm {L M : List (Nat × Nat)} (h : L.Perm M) : depthCost L = depthCost M := (h.map _).sum_eq

theorem kraftSum_perm {L M : List (Nat × Nat)} (h : L.Perm M) : kraftSum L = kraftSum M := (h.map _).sum_eq

/-- The Kraft sum of depths up to `m` is a multiple of `2^-m`. -/
theorem kraftSum_multiple (m : Nat) (L : List (Nat × Nat)) (h : ∀ p ∈ L, p.2 ≤ m) : ∃ N : Nat, kraftSum L = N / 2 ^ m := by
  induction L with
  | nil => exact ⟨0, by simp⟩
  | cons p L ih =>
    obtain ⟨N, hN⟩ := ih fun q hq => h q (List.mem_cons_of_mem _ hq)
    obtain ⟨k, rfl⟩ := Nat.exists_eq_add_of_le (h p List.mem_cons_self)
    refine ⟨2 ^ k + N, ?_⟩
    rw [kraftSum_cons, hN, pow_add, one_div_pow]
    push_cast
    field_simp

/-- A weight that occurs stands at some depth. -/
theorem weight_at_depth {x : Nat} {ws : List Nat} {L : List (Nat × Nat)} (h : (L.map Prod.fst).Perm (x :: ws)) :
    ∃ d R, L.Perm ((x, d) :: R) ∧ (R.map Prod.fst).Perm ws := by
  have hx : x ∈ L.map Prod.fst := h.symm.subset List.mem_cons_self
  obtain ⟨⟨_, d⟩, hp, rfl⟩ := List.mem_map.mp hx
  have hL := List.perm_cons_erase hp
  exact ⟨d, _, hL, List.Perm.cons_inv ((hL.map Prod.fst).symm.trans h)⟩

/-- A weight not above the others can be brought to the greatest depth, at no cost and with the same depths in use. -/
theorem lightest_to_greatest_depth (x d : Nat) (R : List (Nat × Nat)) (hx : ∀ p ∈ R, x ≤ p.1) :
    ∃ d' R', (R'.map Prod.fst).Perm (R.map Prod.fst) ∧ kraftSum ((x, d') :: R') = kraftSum ((x, d) :: R) ∧
      depthCost ((x, d') :: R') ≤ depthCost ((x, d) :: R) ∧ (∀ p ∈ R', p.2 ≤ d') ∧
      ∀ b, d ≤ b → (∀ p ∈ R, p.2 ≤ b) → d' ≤ b := by
  induction R with
  | nil => exact ⟨d, [], by simp⟩
  | cons q R ih =>
    obtain ⟨w, e⟩ := q
    obtain ⟨d', R', h1, h2, h3, h4, h5⟩ := ih fun p hp => hx p (List.mem_cons_of_mem _ hp)
    have hw : x ≤ w := hx _ List.mem_cons_self
    simp only [kraftSum_cons, depthCost_cons] at h2 h3
    by_cases he : e ≤ d'
    · refine ⟨d', (w, e) :: R', by simpa using h1, by simp only [kraftSum_cons]; linarith, by simp only [depthCost_cons]; omega,
        by simpa [he] using h4, fun b hb hR => h5 b hb fun p hp => hR p (List.mem_cons_of_mem _ hp)⟩
    · refine ⟨e, (w, d') :: R', by simpa using h1, by simp only [kraftSum_cons]; linarith, ?_, ?_,
        fun b _ hR => hR _ List.mem_cons_self⟩
      · obtain ⟨j, rfl⟩ := Nat.exists_eq_add_of_le hw
        obtain ⟨k, rfl⟩ := Nat.exists_eq_add_of_le (Nat.le_of_not_le he)
        simp only [depthCost_cons] at h3 ⊢
        nlinarith
      · intro p hp
        rcases List.mem_cons.mp hp with rfl | hp
        · exact Nat.le_of_not_le he
        · exact (h4 p hp).trans (Nat.le_of_not_le he)

/-- Where two weights stand at the two greatest depths, their sum can stand one above the lesser of the two. -/
theorem merged_at_depth (x y d e : Nat) (R : List (Nat × Nat)) (hR : ∀ p ∈ R, p.2 ≤ e) (hde : e ≤ d)
    (hk : kraftSum ((x, d) :: (y, e) :: R) ≤ 1) :
    kraftSum ((x + y, e - 1) :: R) ≤ 1 ∧ depthCost ((x + y, e - 1) :: R) + (x + y) ≤ depthCost ((x, d) :: (y, e) :: R) := by
  obtain ⟨N, hN⟩ := kraftSum_multiple e R hR
  simp only [kraftSum_cons, depthCost_cons, hN] at hk ⊢
  have hd : (0 : ℚ) < (1 / 2) ^ d := by positivity
  have he : (0 : ℚ) < 2 ^ e := by positivity
  have hlt : ((1 + N : Nat) : ℚ) < (2 ^ e : Nat) := by
    have h1 : (1 / 2 : ℚ) ^ e + N / 2 ^ e < 1 := by linarith
    have h2 : ((1 / 2 : ℚ) ^ e + N / 2 ^ e) * 2 ^ e = 1 + N := by rw [one_div_pow]; field_simp
    push_cast
    nlinarith
  have hn : 1 + N < 2 ^ e := by exact_mod_cast hlt
  cases e with
  | zero => simp at hn
  | succ k =>
    constructor
    · have hq : ((2 + N : Nat) : ℚ) ≤ (2 ^ (k + 1) : Nat) := by exact_mod_cast (by omega : 2 + N ≤ 2 ^ (k + 1))
      push_cast at hq
      have h3 : (1 / 2 : ℚ) ^ (k + 1 - 1) + N / 2 ^ (k + 1) = (2 + N) / 2 ^ (k + 1) := by
        rw [Nat.add_sub_cancel, pow_succ, one_div_pow]
        field_simp
      rw [h3, div_le_one (by positivity)]
      exact hq
    · have : x * (k + 1) ≤ x * d := Nat.mul_le_mul_left x hde
      rw [Nat.add_sub_cancel]
      nlinarith

/-- The exchange argument of the greedy merge (R119): of weights at depths that meet the Kraft inequality, two lightest can be
merged into their sum, again at depths that meet it, and the cost falls by at least the sum. -/
theorem lightest_pair_merged {x y : Nat} {ws : List Nat} {L : List (Nat × Nat)} (hL : (L.map Prod.fst).Perm (x :: y :: ws))
    (hxy : x ≤ y) (hy : ∀ w ∈ ws, y ≤ w) (hk : kraftSum L ≤ 1) :
    ∃ M, (M.map Prod.fst).Perm ((x + y) :: ws) ∧ kraftSum M ≤ 1 ∧ depthCost M + (x + y) ≤ depthCost L := by
  have weights : ∀ {R : List (Nat × Nat)} {vs : List Nat} {v : Nat}, (R.map Prod.fst).Perm vs → (∀ w ∈ vs, v ≤ w) →
      ∀ p ∈ R, v ≤ p.1 := fun h hv p hp => hv _ (h.subset (List.mem_map_of_mem hp))
  obtain ⟨d, R, hp, hR⟩ := weight_at_depth hL
  have hx : ∀ w ∈ y :: ws, x ≤ w := by
    intro w hw
    rcases List.mem_cons.mp hw with rfl | hw
    · exact hxy
    · exact hxy.trans (hy w hw)
  obtain ⟨d1, R1, h1, k1, c1, m1, -⟩ := lightest_to_greatest_depth x d R (weights hR hx)
  obtain ⟨e, S, hq, hS⟩ := weight_at_depth (h1.trans hR)
  obtain ⟨e1, S1, h2, k2, c2, m2, b2⟩ := lightest_to_greatest_depth y e S (weights hS hy)
  have depths : ∀ p ∈ (y, e) :: S, p.2 ≤ d1 := fun p hp => m1 p (hq.symm.subset hp)
  have kq := kraftSum_perm (hq.cons (x, d1))
  have cq := depthCost_perm (hq.cons (x, d1))
  have kp := kraftSum_perm hp
  have cp := depthCost_perm hp
  simp only [kraftSum_cons, depthCost_cons] at k1 c1 k2 c2 kq cq kp cp
  obtain ⟨hk', hc'⟩ := merged_at_depth x y d1 e1 S1 m2
    (b2 d1 (depths _ List.mem_cons_self) fun p hp => depths p (List.mem_cons_of_mem _ hp))
    (by simp only [kraftSum_cons]; linarith)
  refine ⟨(x + y, e1 - 1) :: S1, by simpa using (h2.trans hS), hk', ?_⟩
  simp only [depthCost_cons] at hc' ⊢
  omega

end Sys2Proof.Machine
end

