-- ==== Sys2Proof/Laws/PerInstr.lean ====
section
/-! SUPPORT. The statements made once per row of the opcode table: `Sys2Proof.Laws.Legality`, that the decoder's verdict on a
command's record accepts exactly the well-formed commands (spec/30_encoding.md R62 to R66), in every build. -/

namespace Sys2Proof.Laws.Legality

/-- The verdict accepts the command's fields exactly when no check of `Instr.defect` fails, and the opcode fault is given
exactly for the two opcode checks. -/
def Statement (i : Instr) : Prop :=
  ∀ b : Build, i.verdict b =
    match i.defect b with
    | none => .command i
    | some .reservedOpcode => .illegalOpcode
    | some .tableReadOnly => .illegalOpcode
    | some _ => .illegalOperand

theorem spellsCode_iff (lMax : Nat) (f : Fields) : f.spellsCode lMax = true ↔ f.codeDefect lMax = none := by
  have h0 : f.len = 0 ↔ f.len.toNat = 0 := by
    constructor
    · intro h; rw [h]; rfl
    · intro h; exact BitVec.eq_of_toNat_eq h
  simp only [Fields.spellsCode, Fields.codeDefect, decide_eq_true_eq, h0]
  split
  · simp; omega
  · split
    · simp; omega
    · split <;> simp <;> omega

theorem codeDefect_kind (lMax : Nat) (f : Fields) :
    f.codeDefect lMax ≠ some .reservedOpcode ∧ f.codeDefect lMax ≠ some .tableReadOnly := by
  unfold Fields.codeDefect
  split
  · simp
  · split
    · simp
    · split <;> simp

theorem pack (f : Fields) : Statement (.pack f) := by
  intro b
  have h1 := spellsCode_iff b.lMax f
  obtain ⟨h2, h3⟩ := codeDefect_kind b.lMax f
  simp only [Instr.verdict, judge, packLegal, Instr.defect]
  by_cases hs : f.sym = 0#8
  · cases hd : f.codeDefect b.lMax with
    | none => simp [hs, h1.mpr hd]
    | some d =>
      have : f.spellsCode b.lMax = false := by
        rw [← Bool.not_eq_true, h1, hd]; simp
      rw [hd] at h2 h3
      cases d <;> simp_all
  · simp [hs]

theorem flush (f : Fields) : Statement (.flush f) := by
  intro b
  simp only [Instr.verdict, judge, flushLegal, Instr.defect, Fields.unusedCodeDefect]
  by_cases hs : f.sym = 0#8 <;> by_cases hl : f.len = 0#8 <;> by_cases hc : f.code = 0#255 <;> simp [hs, hl, hc]

theorem ldt (f : Fields) : Statement (.ldt f) := by
  intro b
  have h1 := spellsCode_iff b.lMax f
  obtain ⟨h2, h3⟩ := codeDefect_kind b.lMax f
  simp only [Instr.verdict, judge, ldtLegal, Instr.defect]
  by_cases hw : b.tblWritable = true
  · cases hd : f.codeDefect b.lMax with
    | none => simp [hw, h1.mpr hd]
    | some d =>
      have : f.spellsCode b.lMax = false := by
        rw [← Bool.not_eq_true, h1, hd]; simp
      rw [hd] at h2 h3
      cases d <;> simp_all
  · simp [hw]

theorem put (f : Fields) : Statement (.put f) := by
  intro b
  simp only [Instr.verdict, judge, putLegal, Instr.defect, Fields.unusedCodeDefect]
  by_cases hl : f.len = 0#8 <;> by_cases hc : f.code = 0#255 <;> simp [hl, hc]

theorem reserved0 (f : Fields) : Statement (.reserved0 f) := fun _ => rfl

theorem reserved5 (f : Fields) : Statement (.reserved5 f) := fun _ => rfl

theorem reserved67 (low : BitVec 1) (f : Fields) : Statement (.reserved67 low f) := fun _ => rfl

theorem reserved8F (low : BitVec 3) (f : Fields) : Statement (.reserved8F low f) := fun _ => rfl

end Sys2Proof.Laws.Legality
end

