-- ==== Sys2Proof/Laws/Pins.lean ====
section
/-! SUPPORT. What each part of a clock edge does to the pins (spec/70_reset_and_hazards.md R161, R162). -/

namespace Sys2Proof.Machine

variable (ch : PinChoice) (inp : PinInputs) (ready : Bool) (p : PinState)

@[simp] theorem PinState.transfer_core : (p.transfer inp).core = p.core := by unfold PinState.transfer; split <;> rfl
@[simp] theorem PinState.transfer_inflight : (p.transfer inp).inflight = p.inflight := by
  unfold PinState.transfer; split <;> rfl
@[simp] theorem PinState.accept_core : (p.accept ready inp).core = p.core := by unfold PinState.accept; split <;> rfl
@[simp] theorem PinState.accept_pending : (p.accept ready inp).pending = p.pending := by
  unfold PinState.accept; split <;> rfl
@[simp] theorem PinState.accept_offering : (p.accept ready inp).offering = p.offering := by
  unfold PinState.accept; split <;> rfl
@[simp] theorem PinState.accept_sent : (p.accept ready inp).sent = p.sent := by unfold PinState.accept; split <;> rfl
@[simp] theorem PinState.offer_core : (p.offer ch).core = p.core := by unfold PinState.offer; split <;> rfl
@[simp] theorem PinState.offer_inflight : (p.offer ch).inflight = p.inflight := by unfold PinState.offer; split <;> rfl
@[simp] theorem PinState.offer_pending : (p.offer ch).pending = p.pending := by unfold PinState.offer; split <;> rfl
@[simp] theorem PinState.offer_sent : (p.offer ch).sent = p.sent := by unfold PinState.offer; split <;> rfl

/-- After an acceptance the record in progress is the one before or the one presented with `cmd_ready` at 1. -/
theorem PinState.accept_inflight {w : Record} (h : (p.accept ready inp).inflight = some w) :
    p.inflight = some w ∨ (inp.cmdValid = true ∧ ready = true ∧ w = inp.cmdData) := by
  unfold PinState.accept at h
  split at h
  · rename_i hc
    simp only [Bool.and_eq_true] at hc
    simp only [Option.some.injEq] at h
    exact .inr ⟨hc.1, hc.2, h.symm⟩
  · exact .inl h

/-- Everything finishing can do: nothing, or one transaction-level step of the record in progress, whose bytes then wait. -/
theorem PinState.finish_cases : p.finish ch = p ∨
    ∃ w t, p.inflight = some w ∧ step { p.core with cmd := [w], rst := [] } = .next t ∧
      p.finish ch = { p with core := t, inflight := none, pending := p.pending ++ t.out.drop p.core.out.length } := by
  unfold PinState.finish
  split
  · rename_i w hw
    split
    · split
      · rename_i t ht
        exact .inr ⟨w, t, hw, ht, rfl⟩
      · exact .inl rfl
      · exact .inl rfl
    · exact .inl rfl
  · exact .inl rfl

/-- What finishing does to the block does not depend on the bytes that are being transferred. -/
theorem PinState.finish_transfer_core : ((p.transfer inp).finish ch).core = (p.finish ch).core := by
  unfold PinState.finish
  simp only [PinState.transfer_core, PinState.transfer_inflight]
  split
  · split
    · split <;> simp
    · simp
  · simp

/-- The record worked on is accepted while the block is not halted. -/
theorem PinState.cmdReady_running (h : p.cmdReady ch = true) : p.core.err = false ∧ (p.finish ch).core.err = false := by
  simp only [PinState.cmdReady, Bool.and_eq_true, Bool.not_eq_true'] at h
  exact ⟨h.1.1.2, h.2⟩

/-- Everything the work of an edge does to the block: nothing, or one transaction-level step of the record in progress or of
the one accepted. -/
theorem PinState.work_core : (p.work ch inp ready).core = p.core ∨
    ∃ w, (p.inflight = some w ∨ (p.inflight = none ∧ inp.cmdValid = true ∧ ready = true ∧ w = inp.cmdData)) ∧
      step { p.core with cmd := [w], rst := [] } = .next (p.work ch inp ready).core := by
  unfold PinState.work
  split
  · rename_i hn
    rcases PinState.finish_cases ch (p.accept ready inp) with e | ⟨w, t, hw, ht, e⟩
    · left; rw [e, PinState.accept_core]
    · right
      rw [PinState.accept_core] at ht
      refine ⟨w, ?_, by rw [e]; exact ht⟩
      rcases PinState.accept_inflight inp ready p hw with h | h
      · exact .inl h
      · exact .inr ⟨hn, h⟩
  · rw [PinState.accept_core]
    rcases PinState.finish_cases ch p with e | ⟨w, t, hw, ht, e⟩
    · left; rw [e]
    · right; exact ⟨w, .inl hw, by rw [e]; exact ht⟩

end Sys2Proof.Machine
end

