-- ==== Sys2Proof/Laws/Run.lean ====
section
/-! SUPPORT. Runs of the block's core, step by step. -/

namespace Sys2Proof.Machine

theorem coreRun_next (M : Host.Core) {s t : M.State} (h : M.step s = .next t) (k : Nat) :
    M.run (k + 1) s = M.run k t := by
  simp only [Host.Core.run, h]

theorem coreRun_add (M : Host.Core) (j k : Nat) {s t : M.State} (h : M.run j s = .next t) :
    M.run (j + k) s = M.run k t := by
  induction j generalizing s with
  | zero =>
    simp only [Host.Core.run, Host.Outcome.next.injEq] at h
    subst h
    rw [Nat.zero_add]
  | succ j ih =>
    simp only [Host.Core.run] at h
    rw [Nat.succ_add]
    cases hs : M.step s with
    | next u => rw [hs] at h; rw [coreRun_next M hs]; exact ih h
    | fault r => rw [hs] at h; simp at h
    | refused r => rw [hs] at h; simp at h

theorem run_zero (s : State) : Host.Core.run core 0 s = .next s := rfl

theorem run_next {s t : State} (h : step s = .next t) (k : Nat) :
    Host.Core.run core (k + 1) s = Host.Core.run core k t :=
  coreRun_next core h k

theorem run_add (j k : Nat) {s t : State} (h : Host.Core.run core j s = .next t) :
    Host.Core.run core (j + k) s = Host.Core.run core k t :=
  coreRun_add core j k h

end Sys2Proof.Machine
end

