-- ==== Sys2Proof/Tests/Slice0.lean ====
section
/-! SUPPORT. Tests: the checks of WellFormed, decoding of records written out from the encoding, vectors of
spec/95_test_vectors.md on single steps, and for every statement with hypotheses a state or operands that meet them. -/

namespace Sys2Proof.Tests

open Sys2Proof.Machine

-- the records' type has 2^275 elements
set_option exponentiation.threshold 300

/-- The state of a build with given packer registers. -/
def packerState (b : Build) (cnt acc symcnt : Nat) : State :=
  { State.reset with build := b, cnt := BitVec.ofNat 3 cnt, acc := BitVec.ofNat 7 acc, symcnt := symcnt }

/-- The table of T-PUT-1 to T-PUT-5: a = "0", b = "10", c = "110", d = "111". -/
def vectorTable : Memory :=
  [(0x61, codeEntry 1 0), (0x62, codeEntry 2 2), (0x63, codeEntry 3 6), (0x64, codeEntry 3 7)]

/-- The default build with another chunk size. -/
def chunkBuild (c : Nat) : Build := { Build.default with chunkSymbols := c }

/-- The default build with `L_MAX = 16` (T-DEC-17, T-DEC-18). -/
def narrowBuild : Build := { Build.default with lMax := 16 }

/-- A ROM build that holds the table of the vectors. -/
def romBuild : Build := { Build.default with tblWritable := false, tblReset := vectorTable }

/-- The next state, if there is one. -/
def after (o : Host.Outcome State Fault Refusal) : Option State :=
  match o with
  | .next t => some t
  | .fault _ => none
  | .refused _ => none

/-- `CNT`, `ACC`, `SYMCNT` and the bytes of `OUT`. -/
def view (t : State) : Nat × Nat × Nat × List Nat := (t.cnt.toNat, t.acc.toNat, t.symcnt, t.out.map BitVec.toNat)

/-- `ERR` and `CAUSE`. -/
def flags (t : State) : Bool × Nat := (t.err, t.cause.toNat)

/-- A state of the decoding vectors (2.6): `CNT = 3`, `ACC = 5`, `SYMCNT = 9`. -/
def decState : State := packerState Build.default 3 5 9

/-! ### WellFormed: one ill-formed term for each check -/

theorem test_wf_reservedOpcode : (Instr.reserved5 ⟨0, 0, 0⟩).defect Build.default = some .reservedOpcode := by decide
theorem test_wf_tableReadOnly : (Instr.ldt ⟨0x41, 2, 3⟩).defect romBuild = some .tableReadOnly := by decide
theorem test_wf_symNotZero : (Instr.pack ⟨1, 3, 7⟩).defect Build.default = some .symNotZero := by decide
theorem test_wf_lenNotZero : (Instr.put ⟨0x41, 1, 0⟩).defect Build.default = some .lenNotZero := by decide
theorem test_wf_codeNotZero : (Instr.flush ⟨0, 0, 1⟩).defect Build.default = some .codeNotZero := by decide
theorem test_wf_lenZero : (Instr.pack ⟨0, 0, 0⟩).defect Build.default = some .lenZero := by decide
theorem test_wf_lenTooLong : (Instr.pack ⟨0, 17, 1⟩).defect narrowBuild = some .lenTooLong := by decide
theorem test_wf_codeTooWide : (Instr.ldt ⟨0x41, 2, 4⟩).defect Build.default = some .codeTooWide := by decide
theorem test_wf_accepts : (Instr.ldt ⟨0x41, 2, 3⟩).WellFormed Build.default ∧ (Instr.put ⟨0xFF, 0, 0⟩).WellFormed romBuild := by
  decide

/-! ### Decoding: records written out field by field from R60 (`code`, `len`, `sym`, `op`) -/

theorem test_decode_pack : decode (0b111#255 ++ 0b00000011#8 ++ 0b00000000#8 ++ 0b0001#4) = .pack ⟨0, 3, 7⟩ := by decide
theorem test_decode_flush : decode (0#255 ++ 0#8 ++ 0#8 ++ 0b0010#4) = .flush ⟨0, 0, 0⟩ := by decide
theorem test_decode_ldt : decode (0b10#255 ++ 0b00000010#8 ++ 0b01100010#8 ++ 0b0011#4) = .ldt ⟨0x62, 2, 2⟩ := by decide
theorem test_decode_put : decode (0#255 ++ 0#8 ++ 0b01100001#8 ++ 0b0100#4) = .put ⟨0x61, 0, 0⟩ := by decide
theorem test_decode_reserved0 : decode (0#255 ++ 0#8 ++ 0#8 ++ 0b0000#4) = .reserved0 ⟨0, 0, 0⟩ := by decide
theorem test_decode_reserved5 : decode (0#255 ++ 0b00001001#8 ++ 0b11111111#8 ++ 0b0101#4) = .reserved5 ⟨255, 9, 0⟩ := by
  decide
theorem test_decode_reserved6 : decode (1#255 ++ 0#8 ++ 0#8 ++ 0b0110#4) = .reserved67 0 ⟨0, 0, 1⟩ := by decide
theorem test_decode_reservedF : decode (0#255 ++ 0#8 ++ 2#8 ++ 0b1111#4) = .reserved8F 7 ⟨2, 0, 0⟩ := by decide
theorem test_decodeTableWord : decodeTableWord 24 0x1 = some (.pack ⟨0, 0, 0⟩) ∧ decodeTableWord 24 0xC = some (.reserved8F 4 ⟨0, 0, 0⟩) := by
  decide
theorem test_verdict_order : verdict Build.default 0x9FF5 = .illegalOpcode ∧ verdict Build.default 0x1 = .illegalOperand ∧
    verdict Build.default 0x302413 = .command (.ldt ⟨0x41, 2, 3⟩) ∧ verdict romBuild 0x302413 = .illegalOpcode := by decide

/-! ### Vectors on single commands -/

/-- T-PACK-4. -/
theorem test_pack_two_bytes : (after (exec (decode 0x2AA0A001) (packerState Build.default 7 0x55 4))).map view =
    some (1, 0, 4, [0xAB, 0x55]) := by decide
/-- T-PACK-11: the longest code, whose leading zeros are data. -/
theorem test_pack_longest : (after (exec (decode 0x1FF001) (packerState Build.default 7 0 0))).map view =
    some (6, 1, 0, List.replicate 32 0) := by decide
/-- T-FLUSH-3: a residual of zeros still emits. -/
theorem test_flush_zero_residual : (after (exec (decode 0x2) (packerState Build.default 3 0 0))).map view =
    some (0, 0, 0, [0]) := by decide
/-- T-FLUSH-7: only `SYMCNT` changes. -/
theorem test_flush_symcnt : (after (exec (decode 0x2) (packerState Build.default 0 0 9))).map view =
    some (0, 0, 0, []) := by decide
/-- T-LDT-5: the later entry replaces the earlier whole. -/
theorem test_ldt_replaces : (after (exec (decode 0x1413) { State.reset with tbl := [(0x41, codeEntry 2 3)] })).map
    (·.entry 0x41) = some ⟨true, 1, 0⟩ := by decide
/-- T-LDT-6. -/
theorem test_ldt_rom : (after (exec (decode 0x302413) { State.reset with build := romBuild })).map flags = some (true, 1) := by
  decide
/-- T-PUT-3. -/
theorem test_put_fills_a_byte : (after (exec (decode 0x644) { packerState Build.default 5 0x0E 2 with tbl := vectorTable })).map
    view = some (0, 0, 3, [0x77]) := by decide
/-- T-PUT-5: the last symbol of a chunk flushes, right-aligned. -/
theorem test_put_flushes : (after (exec (decode 0x624) { packerState (chunkBuild 4) 1 0 3 with tbl := vectorTable })).map
    view = some (0, 0, 0, [0x02]) := by decide
/-- T-DEC-1 to T-DEC-4: reserved opcodes. -/
theorem test_reserved_cause : ([0x0, 0x5, 0xF, 0x9FF5].map fun w => (after (exec (decode w) decState)).map flags) =
    List.replicate 4 (some (true, 1)) := by decide
/-- T-DEC-5 to T-DEC-12, T-DEC-14, T-DEC-15: illegal operands. -/
theorem test_operand_cause : ([0x1, 0x803001, 0x703011, 0x12, 0x1002, 0x100002, 0x1414, 0x100414, 0x413, 0x402413].map fun w =>
    (after (exec (decode w) decState)).map flags) = List.replicate 10 (some (true, 2)) := by decide
/-- T-DEC-13: no code; nothing else changes. -/
theorem test_no_code : (after (exec (decode 0x414) decState)).map (fun t => (flags t, view t)) =
    some ((true, 3), (3, 5, 9, [])) := by decide
/-- T-DEC-17 and its accepted neighbour T-DEC-18. -/
theorem test_narrow_build : (after (exec (decode 0x111001) (packerState narrowBuild 0 0 0))).map flags = some (true, 2) ∧
    (after (exec (decode 0xFFFF10001) (packerState narrowBuild 0 0 0))).map view = some (0, 0, 0, [0xFF, 0xFF]) := by decide
/-- T-RST-1, T-RST-2: reset, in the loadable and in the ROM build; `OUT` stays. -/
theorem test_reset : (after (step { decState with err := true, cause := 3, rst := [true], out := [0xEE] })).map
      (fun t => (flags t, view t)) = some ((false, 0), (0, 0, 0, [0xEE])) ∧
    (after (step { State.reset with build := romBuild, rst := [true] })).map (·.entry 0x62) = some ⟨true, 2, 2⟩ := by decide
/-- P4: the block that has faulted accepts nothing. -/
theorem test_halted : step { State.reset with err := true, cause := 3, cmd := [0x2] } = .fault .halted := rfl
/-- The word of a table row runs as the first command after reset. -/
theorem test_withFetchWord : (after (step (State.reset.withFetchWord 24 0x2))).map flags = some (false, 0) ∧
    (after (step (State.reset.withFetchWord 24 0x1))).map flags = some (true, 2) := by decide
/-- T-B2B-8, S1, S3. -/
theorem test_reference : (b2b [true, true, true, false, true, true, true, false, true, true, true]).map BitVec.toNat = [238, 7] ∧
    bytesToBits [] [7] = [true, true, true] ∧ bitsToBytesText ['2', 'b'] = .error .invalidBitString := by decide
/-- P3 with `CHUNK_SYMBOLS = 4` and with the default. -/
theorem test_stream_depends_on_chunks :
    encStream (tableOf [(0x61, [false]), (0x62, [true, false]), (0x63, [true, true, false]), (0x64, [true, true, true])]) 4
      [0x61, 0x62, 0x61, 0x63, 0x61, 0x64, 0x61, 0x62] = some [0x26, 0x3A] ∧
    encStream (tableOf [(0x61, [false]), (0x62, [true, false]), (0x63, [true, true, false]), (0x64, [true, true, true])]) 65536
      [0x61, 0x62, 0x61, 0x63, 0x61, 0x64, 0x61, 0x62] = some [0x4C, 0x3A] := by decide

/-! ### The host's builder under a legal tie-break -/

/-- A stable sort by descending frequency, the earlier of the two removed nodes on the left. -/
def stableTie : TieBreak :=
  { sort := fun c => c.insertionSort fun x y => y.freq ≤ x.freq, swap := fun _ _ => false }

theorem test_stableTie_legal : stableTie.legal := by
  intro c
  refine ⟨List.perm_insertionSort _ _, ?_⟩
  have : Std.Total (fun x y : HuffmanNode => y.freq ≤ x.freq) := ⟨fun x y => Nat.le_total y.freq x.freq⟩
  have : IsTrans HuffmanNode (fun x y => y.freq ≤ x.freq) := ⟨fun x y z h1 h2 => Nat.le_trans h2 h1⟩
  exact List.pairwise_insertionSort _ _

/-- The same sort on the collection taken in the other order. -/
def reverseTie : TieBreak :=
  { sort := fun c => c.reverse.insertionSort fun x y => y.freq ≤ x.freq, swap := fun _ _ => false }

theorem test_reverseTie_legal : reverseTie.legal := by
  intro c
  obtain ⟨h1, h2⟩ := test_stableTie_legal c.reverse
  exact ⟨h1.trans (List.reverse_perm _), h2⟩

/-- The lengths of a map's codes under a tie-break, in the map's order, and the weighted total. -/
def lengthsAndTotal (tie : TieBreak) (m : FrequencyMap) : List Nat × Nat :=
  match buildTree tie m with
  | .ok root => (m.map fun p => ((tableOf (assignCodes false root) p.1).getD []).length,
      weightedLength m (assignCodes false root))
  | .error _ => ([], 0)

/-- T-TREE-1: four equal counts give four codes of 2 digits under either sort. -/
theorem test_tree_equal : let m : FrequencyMap := [(0x41, 5), (0x42, 5), (0x43, 5), (0x44, 5)]
    lengthsAndTotal stableTie m = ([2, 2, 2, 2], 40) ∧ lengthsAndTotal reverseTie m = ([2, 2, 2, 2], 40) := by decide
/-- T-TREE-2: a single symbol gets the one digit left open. -/
theorem test_tree_single : (match buildTree stableTie [(0x41, 9)] with
    | .ok root => (assignCodes true root, assignCodes false root)
    | .error _ => ([], [])) = ([(0x41, [true])], [(0x41, [false])]) := by decide
/-- T-TREE-3: A:1, B:1, C:2, D:2 has three outcomes, each with the total 12. -/
theorem test_tree_ties : lengthsAndTotal stableTie [(0x41, 1), (0x42, 1), (0x43, 2), (0x44, 2)] = ([3, 3, 1, 2], 12) ∧
    lengthsAndTotal stableTie [(0x41, 1), (0x42, 1), (0x44, 2), (0x43, 2)] = ([3, 3, 1, 2], 12) ∧
    lengthsAndTotal reverseTie [(0x41, 1), (0x42, 1), (0x43, 2), (0x44, 2)] = ([2, 2, 2, 2], 12) := by decide
/-- T-TREE-4: the weighted total. -/
theorem test_tree_total : lengthsAndTotal reverseTie [(0x61, 4), (0x62, 2), (0x63, 1), (0x64, 1)] = ([1, 2, 3, 3], 14) := by
  decide
/-- T-TREE-4: the stream "abacadab" gives codes of 1, 2, 3, 3 digits. -/
theorem test_tree_lengths : (match buildTree stableTie (countStream [0x61, 0x62, 0x61, 0x63, 0x61, 0x64, 0x61, 0x62]) with
    | .ok root => (assignCodes false root).map fun p => (p.1.toNat, p.2.length)
    | .error _ => []) = [(0x61, 1), (0x62, 2), (0x63, 3), (0x64, 3)] := by decide
/-- T-TREE-0. -/
theorem test_tree_empty : buildTree stableTie (countStream []) = .error .treeConstructionFailure := rfl

/-! ### Witnesses: the hypotheses of each statement, clause by clause -/

/-- A state that holds a code for every symbol used below, in a chunk of four, with records presented. -/
def w0 : State := { packerState (chunkBuild 4) 4 0x0E 2 with tbl := vectorTable, cmd := [0x624, 0x2] }

theorem witness_build : w0.build.wf := by
  refine ⟨by decide +kernel, by decide, by decide, ?_⟩
  intro p hp; cases hp
theorem witness_entries : w0.entriesLegal := by
  intro p hp
  simp only [w0, vectorTable, codeEntry, List.mem_cons, List.not_mem_nil, or_false] at hp
  rcases hp with rfl | rfl | rfl | rfl <;> decide
theorem witness_records : w0.recordsFit := fun w _ => w.isLt
theorem witness_inv : w0.Inv :=
  ⟨witness_build, by decide, by decide, by decide, witness_entries, by decide, by decide, witness_records⟩

theorem witness_ResetGivesTheStatedValues : ({ decState with err := true, rst := [true, false] } : State).rst = true :: [false] := rfl
theorem witness_ResetOverridesCommandAndHalt : ({ w0 with err := true, rst := [true] } : State).rst = true :: [] := rfl
theorem witness_AfterResetTheNextRecordRuns : let s : State := { w0 with err := true, cause := 3, rst := [true, false] }
    s.rst = true :: [false] ∧ ([false] : List Bool).head? ≠ some true ∧ s.cmd = 0x624 :: [0x2] := by decide
theorem witness_HaltedBlockAcceptsNothing_stuck : let s : State := { w0 with err := true, cause := 1, rst := [false, false] }
    s.err = true ∧ s.resetLow ∧ true ∉ s.rst.tail := by decide
theorem witness_HaltedBlockAcceptsNothing_waits : let s : State := { w0 with err := true, cause := 1, rst := [false, true] }
    s.err = true ∧ s.resetLow ∧ true ∈ s.rst.tail := by decide
theorem witness_IdleBlockKeepsItsState : decState.running ∧ decState.resetLow ∧ decState.cmd = [] := by decide
theorem witness_StepRunsTheDecodedInstruction : w0.running ∧ w0.resetLow ∧ w0.cmd = 0x624 :: [0x2] := by decide

/-- A step from a state that meets the invariant, for the statements over every step. -/
theorem witness_step : (after (step w0)).map view = some (6, 0x3A, 3, []) := by decide
theorem witness_EveryStepKeepsTheInvariant : w0.Inv ∧ (after (step w0)).isSome = true := ⟨witness_inv, by decide⟩
theorem witness_BytesOfOneStepAreBounded : w0.Inv ∧ (after (step { w0 with cmd := [0x2] })).map (·.out) = some [0x0E] :=
  ⟨witness_inv, by decide⟩
theorem witness_ResidualStaysBelowItsLength : w0.residualWf ∧ (after (step w0)).isSome = true := by decide
theorem witness_RomTableNeverChanges : let s : State := { State.reset with build := romBuild, tbl := vectorTable, cmd := [0x614] }
    s.build.tblWritable = false ∧ s.tbl = s.build.tblReset ∧ (after (step s)).isSome = true := by decide
theorem witness_OutputOnlyGrows : (after (step { w0 with cmd := [0x2], out := [0xEE] })).map (·.out) = some [0xEE, 0x0E] := by decide

theorem witness_VerdictOnEveryRecord_opcode : badOpcode romBuild 0x302413 ∧ badOpcode Build.default 0x5 ∧
    badOpcode Build.default 0x0 := by decide
theorem witness_VerdictOnEveryRecord_pack : ¬ badOpcode Build.default 0x803001 ∧ badOperand Build.default 0x803001 := by decide
theorem witness_VerdictOnEveryRecord_flush : ¬ badOpcode Build.default 0x12 ∧ badOperand Build.default 0x12 := by decide
theorem witness_VerdictOnEveryRecord_put : ¬ badOpcode Build.default 0x1414 ∧ badOperand Build.default 0x1414 := by decide
theorem witness_VerdictOnEveryRecord_length : ¬ badOpcode narrowBuild 0x111001 ∧ badOperand narrowBuild 0x111001 := by decide
theorem witness_VerdictOnEveryRecord_accepts : (¬ badOpcode Build.default 0x703001 ∧ ¬ badOperand Build.default 0x703001) ∧
    (¬ badOpcode Build.default 0x2 ∧ ¬ badOperand Build.default 0x2) := by decide
theorem witness_VerdictOnEveryRecord_accepts_table :
    (¬ badOpcode Build.default 0x302413 ∧ ¬ badOperand Build.default 0x302413) ∧
    (¬ badOpcode Build.default 0xFF4 ∧ ¬ badOperand Build.default 0xFF4) := by decide
theorem witness_IllegalOpcodeFault : decState.running ∧ recOp 0x9FF0 = 0 ∧ 5 ≤ recOp 0x5 ∧ 5 ≤ recOp 0xF ∧ recOp 0x302413 = 3 ∧
    romBuild.tblWritable = false := by decide
theorem witness_ReservedRowsRaiseIllegalOpcode : decState.running := by decide
theorem witness_IllegalOperandFault : decState.running ∧ ¬ badOpcode decState.build 0x1002 ∧ badOperand decState.build 0x1002 := by
  decide
theorem witness_PutWithoutCodeFault : decState.running ∧ (decState.entry 0x41).v = false := by decide
theorem witness_FirstFaultInPriorityOrderIsReported : decState.running ∧
    (badOperand Build.default 0x1414 ∧ missingCode decState 0x1414) ∧ missingCode decState 0x414 ∧
    ({ decState with rst := [true], err := true } : State).rst.head? = some true := by decide
theorem witness_FaultsArePrecise : decState.running ∧ (after (exec (decode 0x414) decState)).map (·.err) = some true ∧
    (after (exec (decode 0x2) decState)).map (·.err) = some false := by decide

theorem witness_PackResult_shortest : let f : Fields := ⟨0, 1, 1⟩
    w0.running ∧ f.sym = 0 ∧ 1 ≤ f.len.toNat ∧ f.len.toNat ≤ w0.build.lMax ∧ f.code.toNat < 2 ^ f.len.toNat := by decide
theorem witness_PackResult_longest : let f : Fields := ⟨0, 255, BitVec.allOnes 255⟩
    f.sym = 0 ∧ 1 ≤ f.len.toNat ∧ f.len.toNat ≤ w0.build.lMax ∧ f.code.toNat < 2 ^ f.len.toNat := by decide
theorem witness_PackResult_faults : (⟨1, 3, 7⟩ : Fields).sym ≠ 0 ∧ (⟨0, 0, 0⟩ : Fields).len = 0 ∧
    narrowBuild.lMax < (⟨0, 17, 1⟩ : Fields).len.toNat ∧ 2 ^ (⟨0, 3, 8⟩ : Fields).len.toNat ≤ (⟨0, 3, 8⟩ : Fields).code.toNat := by
  decide
theorem witness_PackAppendsTheCodeToTheBitSequence : w0.running ∧ w0.residualWf ∧ 1 ≤ (4 : Byte).toNat ∧
    (4 : Byte).toNat ≤ w0.build.lMax ∧ (0xE : CodeWord).toNat < 2 ^ (4 : Byte).toNat := by decide
theorem witness_SplittingAPackIsInvisible : let a : Byte := 4; let b : Byte := 3; let c : Byte := 7
    let x : CodeWord := 0xE; let y : CodeWord := 7; let z : CodeWord := 0x77
    w0.running ∧ w0.residualWf ∧ 1 ≤ a.toNat ∧ 1 ≤ b.toNat ∧ a.toNat + b.toNat ≤ w0.build.lMax ∧ x.toNat < 2 ^ a.toNat ∧
      y.toNat < 2 ^ b.toNat ∧ c.toNat = a.toNat + b.toNat ∧ z.toNat = x.toNat * 2 ^ b.toNat + y.toNat := by decide
theorem witness_FlushResult : w0.running ∧ (⟨0, 0, 0⟩ : Fields).sym = 0 ∧ (⟨0, 0, 0⟩ : Fields).len = 0 ∧
    (⟨0, 0, 0⟩ : Fields).code = 0 ∧ (⟨0, 0, 1⟩ : Fields).code ≠ 0 ∧ (⟨0, 1, 0⟩ : Fields).len ≠ 0 ∧ (⟨1, 0, 0⟩ : Fields).sym ≠ 0 := by
  decide
theorem witness_FlushEmitsThePendingBitsOnce : w0.running ∧ w0.residualWf ∧ b2b w0.res = [0x0E] := by decide
theorem witness_PacksThenFlushEmitTheReferencePacking :
    let cs : List (Byte × CodeWord) := [(4, 0xE), (7, 0x77)]
    let s : State := { State.reset with
      cmd := (cs.map (fun p => Instr.pack { sym := 0, len := p.1, code := p.2 }) ++ [flushCommand]).map encode }
    s.running ∧ s.residualWf ∧ s.cnt = 0 ∧ s.rst = [] ∧
      (∀ p ∈ cs, 1 ≤ p.1.toNat ∧ p.1.toNat ≤ s.build.lMax ∧ p.2.toNat < 2 ^ p.1.toNat) := by
  refine ⟨rfl, by decide, rfl, rfl, ?_⟩
  simp [State.reset, Build.default]

theorem witness_LdtResult : let f : Fields := ⟨0x41, 2, 3⟩
    w0.running ∧ w0.build.tblWritable = true ∧ 1 ≤ f.len.toNat ∧ f.len.toNat ≤ w0.build.lMax ∧ f.code.toNat < 2 ^ f.len.toNat ∧
      (⟨0x41, 0, 0⟩ : Fields).len = 0 ∧ narrowBuild.lMax < (⟨0x41, 17, 0⟩ : Fields).len.toNat ∧
      2 ^ (⟨0x41, 2, 4⟩ : Fields).len.toNat ≤ (⟨0x41, 2, 4⟩ : Fields).code.toNat ∧ romBuild.tblWritable = false := by decide
theorem witness_PutResult : let f : Fields := ⟨0x61, 0, 0⟩
    w0.running ∧ f.len = 0 ∧ f.code = 0 ∧ (w0.entry f.sym).v = true ∧ w0.symcnt ≠ w0.build.chunkSymbols - 1 ∧
      ({ w0 with symcnt := 3 } : State).symcnt = w0.build.chunkSymbols - 1 ∧ (⟨0x61, 1, 0⟩ : Fields).len ≠ 0 ∧
      (⟨0x61, 0, 1⟩ : Fields).code ≠ 0 ∧ (w0.entry 0x41).v = false := by decide
theorem witness_PutEncodesOneSymbol_mid : w0.Inv ∧ w0.running ∧ w0.codes 0x63 = some [true, true, false] ∧
    w0.symcnt + 1 ≠ w0.build.chunkSymbols := ⟨witness_inv, by decide⟩
theorem witness_PutEncodesOneSymbol_last : let s : State := { w0 with symcnt := 3 }
    s.Inv ∧ s.running ∧ s.codes 0x63 = some [true, true, false] ∧ s.symcnt + 1 = s.build.chunkSymbols :=
  ⟨⟨witness_build, by decide, by decide, by decide, witness_entries, by decide, by decide, witness_records⟩, by decide⟩
theorem witness_SymcntCountsThePutsOfTheChunk : let s : State := { w0 with symcnt := 3 }
    s.running ∧ s.symcnt < s.build.chunkSymbols ∧ (after (exec (decode 0x614) s)).map (·.symcnt) = some 0 := by decide
theorem witness_LdtIsVisibleToTheNextPut : let f : Fields := ⟨0x41, 2, 3⟩
    let s : State := { State.reset with cmd := encode (.ldt f) :: encode (putOf f.sym) :: [0x2] }
    s.running ∧ s.rst = [] ∧ s.build.tblWritable = true ∧ 1 ≤ f.len.toNat ∧ f.len.toNat ≤ s.build.lMax ∧
      f.code.toNat < 2 ^ f.len.toNat ∧ s.symcnt + 1 < s.build.chunkSymbols := by decide +kernel
theorem witness_TableWriteChangesOneEntry : Memory.wf vectorTable ∧ 0x41 < 256 ∧
    (after (exec (decode 0x302413) w0)).map (fun t => decide (tblRead t.tbl 0x41 ≠ tblRead w0.tbl 0x41)) = some true := by decide
theorem test_memory_not_wf : ¬ Memory.wf [(2, codeEntry 1 0), (1, codeEntry 1 0)] ∧ ¬ Memory.wf [(1, Memory.unlisted)] ∧
    ¬ Memory.wf [(256, codeEntry 1 0)] := by decide
theorem witness_SymcntFitsItsWidth : w0.symcnt < w0.build.chunkSymbols ∧ 1 ≤ (chunkBuild 5).chunkSymbols ∧
    (chunkBuild 5).chunkSymbols ≤ 2 ^ 3 ∧ (chunkBuild 5).symcntWidth = 3 ∧ (chunkBuild 1).symcntWidth = 1 := by decide

theorem witness_ReferencePackingByteByByte : 0 < 1 ∧ (0 < ([true, true, true] : List Bool).length % 8) := by decide
theorem witness_SequencesAndIntegersAreInverse : (7 : Nat) < 2 ^ 3 ∧ seq 3 1 = [false, false, true] := by decide
theorem witness_TextualPackingAgreesOrFails : ∃ c ∈ ['2', 'b'], c ≠ '0' ∧ c ≠ '1' :=
  ⟨'2', by simp, by decide⟩
theorem witness_default_build : Build.default.wf :=
  ⟨by decide, by decide, ⟨List.Pairwise.nil, by simp [Build.default]⟩, by simp [Build.default]⟩
theorem witness_StreamOutputEqualsTheReference :
    let codes : List (Byte × List Bool) := [(0x61, [false]), (0x62, [true, false])]
    let x : List Byte := [0x61, 0x62, 0x61]
    let s : State := { State.reset with cmd := (runCommands codes x).map encode }
    s.build.wf ∧ s.build.tblWritable = true ∧ s.running ∧ s.acc = 0 ∧ s.cnt = 0 ∧ s.symcnt = 0 ∧ s.rst = [] ∧ s.tbl = s.build.tblReset ∧
      (codes.map Prod.fst).Nodup ∧ (∀ p ∈ codes, 1 ≤ p.2.length ∧ p.2.length ≤ s.build.lMax) ∧
      (∀ b ∈ x, b ∈ codes.map Prod.fst) :=
  ⟨witness_default_build, by decide⟩
theorem witness_BuilderGivesOneCodePerEntry : stableTie.legal ∧ countStream [0x61, 0x62, 0x61] ≠ [] :=
  ⟨test_stableTie_legal, by decide⟩
/-- The other tree of R121's counter-example, against the one the stable sort builds. -/
theorem witness_BuiltTreeMinimisesTheWeightedLength :
    let m : FrequencyMap := [(0x41, 1), (0x42, 1), (0x43, 2), (0x44, 2)]
    let other : HuffmanNode := .internal 6 (.internal 3 (.leaf 1 0x41) (.leaf 2 0x43)) (.internal 3 (.leaf 2 0x44) (.leaf 1 0x42))
    stableTie.legal ∧ (m.map Prod.fst).Nodup ∧ (∃ root, buildTree stableTie m = .ok root) ∧
      other.symbols.Perm (m.map Prod.fst) ∧ weightedLength m (assignCodes false other) = 12 :=
  ⟨test_stableTie_legal, by decide, ⟨_, rfl⟩, by decide, by decide⟩
theorem witness_WeightedTotalIsTheSameUnderEveryTieBreak :
    let m : FrequencyMap := [(0x41, 1), (0x42, 1), (0x43, 2), (0x44, 2)]
    stableTie.legal ∧ reverseTie.legal ∧ (m.map Prod.fst).Nodup ∧ m.Perm m.reverse ∧
      (∃ root, buildTree stableTie m = .ok root) ∧ ∃ root, buildTree reverseTie m.reverse = .ok root :=
  ⟨test_stableTie_legal, test_reverseTie_legal, by decide, by decide, ⟨_, rfl⟩, _, rfl⟩
theorem witness_CompressionFromResetEmitsTheReferenceStream : stableTie.legal ∧ ([0x61, 0x62] : List Byte) ≠ [] :=
  ⟨test_stableTie_legal, by decide⟩
theorem witness_PacksExpandsToTheDigits : Build.default.wf ∧ ∃ c ∈ ['2', 'b'], c ≠ '0' ∧ c ≠ '1' :=
  ⟨witness_default_build, '2', by simp, by decide⟩
theorem witness_FrequencyMap : FrequencyMap.counts (countStream [0x61, 0x62, 0x61]) [0x61, 0x62, 0x61] := by
  refine ⟨by decide, fun b => ?_, by decide⟩
  have : (countStream [0x61, 0x62, 0x61]).map Prod.fst = [0x61, 0x62] := by decide
  rw [this]
  simp only [List.mem_cons, List.not_mem_nil, or_false]
  tauto

/-- A busy pin state: one byte offered, one command being worked on. -/
def p0 : PinState :=
  { core := { State.reset with out := [0xEE] }, inflight := some 0x2, pending := [0xEE], offering := true, sent := [] }

theorem witness_PinsDeliverTheOutputInOrder : p0.Inv ∧ p0.busy = true ∧ PinState.reset.Inv ∧ PinState.reset.busy = false := by
  decide
theorem witness_PinsRunOneTransactionAtATime :
    ((p0.edge ⟨true, true, true⟩ ⟨false, false, 0, true⟩).core.out, (p0.edge ⟨true, true, true⟩ ⟨false, false, 0, true⟩).inflight,
      (p0.edge ⟨true, true, true⟩ ⟨false, false, 0, true⟩).sent) = ([0xEE], none, [0xEE]) := by decide
/-- A record accepted on an edge can finish on it, and a record can be accepted on the edge where the one before it finishes,
unless that one faults. -/
theorem witness_PinsRunOneTransactionAtATime_accepted :
    (PinState.reset.outputs ⟨true, true, false⟩).cmdReady = true ∧
    (PinState.reset.edge ⟨true, true, false⟩ ⟨false, true, 0x2, true⟩).inflight = none ∧
    (PinState.reset.edge ⟨true, true, false⟩ ⟨false, true, 0x0, true⟩).core.err = true ∧
    (p0.edge ⟨true, true, false⟩ ⟨false, true, 0x614, true⟩).inflight = some 0x614 ∧
    (({ p0 with inflight := some 0x0 } : PinState).outputs ⟨true, true, false⟩).cmdReady = false := by decide
theorem witness_PinsHoldErrAndOfferedBytes :
    (p0.outputs ⟨true, true, true⟩).outValid = true ∧
    ({ PinState.reset with core := { State.reset with err := true, cause := 3 } } : PinState).Inv := by decide

end Sys2Proof.Tests
end

/-! ### The statements of the scope family (spec/00_scope.md): what a step runs and keeps, the width of `SYMCNT`, sequences and
integers -/

namespace Sys2Proof.Machine

/-! #### The invariant of the block, one lemma per operation on the state -/

theorem codeEntry_legal_of_ldtLegal {b : Build} {f : Fields} (h : ldtLegal b f = true) :
    (codeEntry f.len f.code).legal b.lMax := by
  intro _
  simpa [ldtLegal, Fields.spellsCode, codeEntry] using h

theorem tblInsert_legal {m : Memory} {lMax : Nat} (h : ∀ p ∈ m, p.2.legal lMax) (a : Nat) {e : Entry}
    (he : e.legal lMax) : ∀ p ∈ tblInsert m a e, p.2.legal lMax := by
  intro p hp
  rcases tblInsert_keys m a e p hp with rfl | hp
  · exact he
  · exact h p hp

@[simp] theorem causeCode_ne_zero (c : Cause) : ¬ causeCode c = 0#2 := by cases c <;> decide

variable {s : State}

/-- The inputs: fewer presented records and any reset samples. -/
theorem State.Inv.with_inputs (h : s.Inv) {cmd : List Record} (hcmd : cmd ⊆ s.cmd) (rst : List Bool) :
    State.Inv { s with cmd := cmd, rst := rst } := by
  obtain ⟨hbuild, hres, hsymcnt, htbl, hlegal, hflags, hrom, hfit⟩ := h
  exact ⟨hbuild, hres, hsymcnt, htbl, hlegal, hflags, hrom, fun w hw => hfit w (hcmd hw)⟩

theorem State.Inv.raise (h : s.Inv) (c : Cause) : (s.raise c).Inv := by
  obtain ⟨hbuild, hres, hsymcnt, htbl, hlegal, -, hrom, hfit⟩ := h
  have hflags : (s.raise c).flagsWf := by simp [State.flagsWf]
  exact ⟨hbuild, hres, hsymcnt, htbl, hlegal, hflags, hrom, hfit⟩

theorem State.Inv.append (h : s.Inv) (len code : Nat) : (s.append len code).Inv := by
  obtain ⟨hbuild, -, hsymcnt, htbl, hlegal, hflags, hrom, hfit⟩ := h
  exact ⟨hbuild, append_residualWf s len code, hsymcnt, htbl, hlegal, hflags, hrom, hfit⟩

/-- The symbol count becomes 0, which is in range because `CHUNK_SYMBOLS >= 1` (R7). -/
theorem State.Inv.endChunk (h : s.Inv) : s.endChunk.Inv := by
  obtain ⟨hbuild, -, -, htbl, hlegal, hflags, hrom, hfit⟩ := h
  exact ⟨hbuild, endChunk_residualWf s, hbuild.1, htbl, hlegal, hflags, hrom, hfit⟩

/-- The count stays in range because the last symbol of a chunk ends the chunk (R103). -/
theorem State.Inv.countSymbol (h : s.Inv) : s.countSymbol.Inv := by
  by_cases hlast : s.symcnt = s.build.chunkSymbols - 1
  · rw [s.countSymbol_last hlast]
    exact h.endChunk
  · rw [s.countSymbol_more hlast]
    obtain ⟨hbuild, hres, hsymcnt, htbl, hlegal, hflags, hrom, hfit⟩ := h
    have hsymcnt' : s.symcnt + 1 < s.build.chunkSymbols := by omega
    exact ⟨hbuild, hres, hsymcnt', htbl, hlegal, hflags, hrom, hfit⟩

/-- The store of a legal `LDT` in a loadable build (R101). -/
theorem State.Inv.storeEntry (h : s.Inv) (hw : s.build.tblWritable = true) {f : Fields}
    (hf : ldtLegal s.build f = true) : (s.storeEntry f.sym (codeEntry f.len f.code)).Inv := by
  obtain ⟨hbuild, hres, hsymcnt, htbl, hlegal, hflags, -, hfit⟩ := h
  have hlegal' : (s.storeEntry f.sym (codeEntry f.len f.code)).entriesLegal := by
    rw [State.entriesLegal, State.storeEntry_tbl, tblWrite_codeEntry]
    exact tblInsert_legal hlegal _ (codeEntry_legal_of_ldtLegal hf)
  have hrom : (s.storeEntry f.sym (codeEntry f.len f.code)).romWf := fun hro => by simp [hw] at hro
  have htbl' : Memory.wf (s.storeEntry f.sym (codeEntry f.len f.code)).tbl := by
    rw [State.storeEntry_tbl]
    exact tblWrite_wf htbl (tblAddr_lt f.sym) _
  exact ⟨hbuild, hres, hsymcnt, htbl', hlegal', hflags, hrom, hfit⟩

/-- The table becomes `TBL_RESET`, whose form and entries are part of the legal build (R9). -/
theorem State.Inv.applyReset (h : s.Inv) : s.applyReset.Inv := by
  obtain ⟨hbuild, -, -, -, -, -, -, hfit⟩ := h
  have ⟨hchunk, _, htbl, hlegal⟩ := hbuild
  have hflags : s.applyReset.flagsWf := by simp [State.flagsWf]
  exact ⟨hbuild, by simp [State.residualWf], hchunk, htbl, hlegal, hflags, fun _ => rfl, hfit⟩

/-- Every command keeps the invariant. -/
theorem exec_keeps_inv {i : Instr} {t : State} (hs : s.Inv) (h : exec i s = .next t) : t.Inv := by
  obtain ⟨c, rfl⟩ | ⟨f, -, -, rfl⟩ | ⟨f, -, -, rfl⟩ | ⟨f, -, hw, hf, rfl⟩ | ⟨f, -, -, -, rfl⟩ := exec_cases h
  · exact hs.raise c
  · exact hs.append _ _
  · exact hs.endChunk
  · exact hs.storeEntry hw hf
  · exact (hs.append _ _).countSymbol

/-- Settles O8: reset, waiting and the one command a step runs keep the invariant. -/
theorem everyStepKeepsTheInvariant : Obligations.EveryStepKeepsTheInvariant := by
  intro s t hs h
  obtain ⟨later, -, rfl⟩ | ⟨-, rfl⟩ | ⟨-, -, w, later, hcmd, hexec⟩ := step_cases h
  · exact hs.applyReset.with_inputs (List.Subset.refl s.cmd) later
  · exact hs.with_inputs (List.Subset.refl s.cmd) s.rst.tail
  · exact exec_keeps_inv (hs.with_inputs (hcmd ▸ List.subset_cons_self w later) s.rst.tail) hexec

/-! #### The build and the ROM table (R9, R27) -/

theorem exec_build {i : Instr} {t : State} (h : exec i s = .next t) : t.build = s.build := by
  obtain ⟨c, rfl⟩ | ⟨f, -, -, rfl⟩ | ⟨f, -, -, rfl⟩ | ⟨f, -, -, -, rfl⟩ | ⟨f, -, -, -, rfl⟩ := exec_cases h
  · rfl
  · rfl
  · rfl
  · rfl
  · rw [State.countSymbol_build, State.append_build]

/-- In a ROM build no command writes the table: only `LDT` stores, and only where the table is loadable. -/
theorem exec_tbl_of_rom {i : Instr} {t : State} (h : exec i s = .next t) (hrom : s.build.tblWritable = false) :
    t.tbl = s.tbl := by
  obtain ⟨c, rfl⟩ | ⟨f, -, -, rfl⟩ | ⟨f, -, -, rfl⟩ | ⟨f, -, hw, -, -⟩ | ⟨f, -, -, -, rfl⟩ := exec_cases h
  · rfl
  · rfl
  · rfl
  · simp [hrom] at hw
  · rw [State.countSymbol_tbl, State.append_tbl]

/-- Settles O10: no command writes the build or a ROM table, and reset loads `TBL_RESET`. -/
theorem romTableNeverChanges : Obligations.RomTableNeverChanges := by
  intro s t h
  obtain ⟨later, -, rfl⟩ | ⟨-, rfl⟩ | ⟨-, -, w, later, -, hexec⟩ := step_cases h
  · exact ⟨rfl, fun _ _ => rfl⟩
  · exact ⟨rfl, fun _ htbl => htbl⟩
  · have hbuild := exec_build hexec
    have hkeep := exec_tbl_of_rom hexec
    exact ⟨hbuild, fun hrom htbl => (hkeep hrom).trans htbl⟩

/-! #### The width of `SYMCNT` (R10) -/

/-- A width of at least one bit is large enough exactly when it holds every count below `CHUNK_SYMBOLS`. -/
theorem symcntWidth_le_iff (b : Build) {w : Nat} (hw : 1 ≤ w) : b.symcntWidth ≤ w ↔ b.chunkSymbols ≤ 2 ^ w := by
  have hpos : 1 ≤ 2 ^ w := Nat.one_le_two_pow
  rw [Build.symcntWidth, Nat.max_le]
  split
  · omega
  · have hlog : Nat.log2 (b.chunkSymbols - 1) < w ↔ b.chunkSymbols - 1 < 2 ^ w := Nat.log2_lt (by omega)
    omega

theorem one_le_symcntWidth (b : Build) : 1 ≤ b.symcntWidth := Nat.le_max_left 1 _

theorem symcntWidth_default : Build.default.symcntWidth = 16 := by decide

/-- Settles O38: `symcntWidth_le_iff` at the width itself, and at any other width. -/
theorem symcntFitsItsWidth : Obligations.SymcntFitsItsWidth := by
  refine ⟨fun s hs => ?_, fun b w _ hw hfits => (symcntWidth_le_iff b hw).mpr hfits, symcntWidth_default⟩
  exact hs.trans_le ((symcntWidth_le_iff s.build (one_le_symcntWidth s.build)).mp le_rfl)

/-! #### Sequences and integers (R12), and the command a step runs (R14) -/

/-- Settles O41, by the laws of bit sequences: `val_seq` for the integers, `seq_val` for the sequences. -/
theorem sequencesAndIntegersAreInverse : Obligations.SequencesAndIntegersAreInverse :=
  ⟨fun n v hv => ⟨seq_length n v, val_seq hv⟩, fun s => ⟨val_lt s, seq_val s⟩⟩

/-- What the block does next when it is running and a record is presented (R26, R29). -/
theorem next_of_running {w : Record} {ws : List Record} (hrun : s.running) (hlow : s.resetLow) (hcmd : s.cmd = w :: ws) :
    s.next = .accept w { s with cmd := ws, rst := s.rst.tail } := by
  rw [next_of_resetLow hlow, hrun, hcmd]
  rfl

/-- Settles O6: the front record is accepted, and a step runs what it accepts. -/
theorem stepRunsTheDecodedInstruction : Obligations.StepRunsTheDecodedInstruction := by
  intro s w ws hrun hlow hcmd
  rw [step, next_of_running hrun hlow hcmd]

end Sys2Proof.Machine

/-! ### The statements of the state family (spec/10_state.md): reset, the residual, `OUT`, the symbol count, frames and the pins -/

namespace Sys2Proof.Machine

variable {s : State}

/-! #### The residual (R21, R22) -/

/-- A residual of no bits is 0. -/
theorem acc_eq_zero_of_cnt_eq_zero (h : s.residualWf) (hcnt : s.cnt = 0) : s.acc = 0 := by
  have hlt : s.acc.toNat < 2 ^ s.cnt.toNat := h
  apply BitVec.eq_of_toNat_eq
  simpa [hcnt] using hlt

theorem exec_keeps_residualWf {i : Instr} {t : State} (hs : s.residualWf) (h : exec i s = .next t) : t.residualWf := by
  obtain ⟨c, rfl⟩ | ⟨f, -, -, rfl⟩ | ⟨f, -, -, rfl⟩ | ⟨f, -, -, -, rfl⟩ | ⟨f, -, -, -, rfl⟩ := exec_cases h
  · exact hs
  · exact append_residualWf s _ _
  · exact endChunk_residualWf s
  · exact hs
  · exact countSymbol_residualWf _ (append_residualWf s _ _)

theorem step_keeps_residualWf {t : State} (hs : s.residualWf) (h : step s = .next t) : t.residualWf := by
  obtain ⟨later, -, rfl⟩ | ⟨-, rfl⟩ | ⟨-, -, w, later, -, hexec⟩ := step_cases h
  · simp [State.residualWf]
  · exact hs
  · exact exec_keeps_residualWf (s := { s with cmd := later, rst := s.rst.tail }) hs hexec

/-- Settles O9: every step keeps the residual below its length, and a length of 0 leaves only 0. -/
theorem residualStaysBelowItsLength : Obligations.ResidualStaysBelowItsLength := by
  intro s t hs h
  have ht := step_keeps_residualWf hs h
  exact ⟨ht, acc_eq_zero_of_cnt_eq_zero ht⟩

/-! #### The output stream (R28) -/

theorem endChunk_out_prefix (s : State) : s.out <+: s.endChunk.out := by
  rw [State.endChunk_out]
  exact List.prefix_append _ _

theorem append_out_prefix (s : State) (len code : Nat) : s.out <+: (s.append len code).out := by
  rw [State.append_out]
  exact List.prefix_append _ _

theorem countSymbol_out_prefix (s : State) : s.out <+: s.countSymbol.out := by
  by_cases hlast : s.symcnt = s.build.chunkSymbols - 1
  · rw [s.countSymbol_last hlast]
    exact endChunk_out_prefix s
  · rw [s.countSymbol_more hlast]

theorem exec_out_prefix {i : Instr} {t : State} (h : exec i s = .next t) : s.out <+: t.out := by
  obtain ⟨c, rfl⟩ | ⟨f, -, -, rfl⟩ | ⟨f, -, -, rfl⟩ | ⟨f, -, -, -, rfl⟩ | ⟨f, -, -, -, rfl⟩ := exec_cases h
  · exact List.prefix_rfl
  · exact append_out_prefix s _ _
  · exact endChunk_out_prefix s
  · exact List.prefix_rfl
  · exact (append_out_prefix s _ _).trans (countSymbol_out_prefix _)

/-- Settles O11: reset and waiting keep `OUT`, and a command only appends to it. -/
theorem outputOnlyGrows : Obligations.OutputOnlyGrows := by
  intro s t h
  obtain ⟨later, -, rfl⟩ | ⟨-, rfl⟩ | ⟨-, -, w, later, -, hexec⟩ := step_cases h
  · exact List.prefix_rfl
  · exact List.prefix_rfl
  · exact exec_out_prefix (s := { s with cmd := later, rst := s.rst.tail }) hexec

/-! #### Legal `PACK` and `PUT` as operations on bit sequences (R90, R103) -/

theorem exec_pack_of_legal {f : Fields} (h : packLegal s.build f = true) :
    exec (.pack f) s = .next (s.append f.len.toNat f.code.toNat) := by
  rw [exec_eq, execState, if_pos h]

/-- `PUT` of a symbol that has a code: append the entry's code, then count the symbol. -/
theorem exec_put_of_code {f : Fields} (h : putLegal f = true) (hv : (s.entry f.sym).v = true) :
    exec (.put f) s = .next (s.append (s.entry f.sym).len.toNat (s.entry f.sym).code.toNat).countSymbol := by
  rw [exec_eq, execState, if_pos h, State.putSymbol, if_pos hv]

/-- Settles O26: a legal `PACK` is one append of the code's bits. -/
theorem packAppendsTheCodeToTheBitSequence : Obligations.PackAppendsTheCodeToTheBitSequence := by
  intro s len code _ _ hlen hmax hcode
  have hlegal : packLegal s.build { sym := 0, len := len, code := code } = true := by
    simp [packLegal, Fields.spellsCode, hlen, hmax, hcode]
  exact ⟨_, exec_pack_of_legal hlegal, append_appends s len.toNat code.toNat hcode⟩

/-- Counting the chunk's last symbol ends the chunk (R103). -/
theorem Appends.countSymbol_last {t : State} {bits : List Bool} (h : Appends s t bits) (ht : t.residualWf)
    (hlast : t.symcnt + 1 = t.build.chunkSymbols) :
    t.countSymbol.out = s.out ++ b2b (s.res ++ bits) ∧ t.countSymbol.res = [] ∧ t.countSymbol.symcnt = 0 := by
  rw [t.countSymbol_last (Nat.eq_sub_of_add_eq hlast)]
  exact ⟨h.endChunk ht, rfl, rfl⟩

theorem Appends.countSymbol_more {t : State} {bits : List Bool} (h : Appends s t bits) (hpos : 1 ≤ t.build.chunkSymbols)
    (hmore : t.symcnt + 1 ≠ t.build.chunkSymbols) :
    Appends s t.countSymbol bits ∧ t.countSymbol.symcnt = t.symcnt + 1 := by
  rw [t.countSymbol_more (by omega)]
  exact ⟨h, rfl⟩

/-- Settles O33: `PUT` appends the bits of the symbol's code, and counting the symbol ends the chunk exactly at its last
symbol. -/
theorem putEncodesOneSymbol : Obligations.PutEncodesOneSymbol := by
  intro s sym c hs _ hcode
  obtain ⟨hbuild, -, -, -, hlegal, -⟩ := hs
  obtain ⟨hv, rfl⟩ := entryCode_eq_some hcode
  obtain ⟨-, -, hfits⟩ := entry_legal hlegal sym hv
  have happ := append_appends s _ _ hfits
  refine ⟨_, exec_put_of_code rfl hv, fun hlast => ?_, fun hmore => ?_⟩
  · exact happ.countSymbol_last (append_residualWf s _ _) hlast
  · obtain ⟨⟨hout, hres⟩, hcount⟩ := happ.countSymbol_more hbuild.1 hmore
    exact ⟨hout, hres, hcount⟩

/-! #### The symbol count (R23) -/

/-- Counting a symbol is counting modulo `CHUNK_SYMBOLS` (R102, R104). -/
theorem countSymbol_symcnt (h : s.symcnt < s.build.chunkSymbols) :
    s.countSymbol.symcnt = (s.symcnt + 1) % s.build.chunkSymbols := by
  by_cases hlast : s.symcnt = s.build.chunkSymbols - 1
  · have hfull : s.symcnt + 1 = s.build.chunkSymbols := by omega
    rw [s.countSymbol_last hlast, hfull, Nat.mod_self, State.endChunk_symcnt]
  · have hlt : s.symcnt + 1 < s.build.chunkSymbols := by omega
    rw [s.countSymbol_more hlast, Nat.mod_eq_of_lt hlt]

/-- Settles O34: one case per thing a command can do; a fault leaves the count and sets `ERR`, every other outcome leaves
`ERR` at 0. -/
theorem symcntCountsThePutsOfTheChunk : Obligations.SymcntCountsThePutsOfTheChunk := by
  intro i s t hrun hlt h
  have hpos : 0 < s.build.chunkSymbols := by omega
  have herr : s.err = false := hrun
  obtain ⟨c, rfl⟩ | ⟨f, rfl, -, rfl⟩ | ⟨f, rfl, -, rfl⟩ | ⟨f, rfl, -, -, rfl⟩ | ⟨f, rfl, -, -, rfl⟩ := exec_cases h
  · simpa using hlt
  · simpa [herr] using hlt
  · simpa [herr] using hpos
  · simpa [herr] using hlt
  · have hcount := countSymbol_symcnt
      (s := s.append (s.entry f.sym).len.toNat (s.entry f.sym).code.toNat) hlt
    simpa [herr, hcount] using Nat.mod_lt _ hpos

/-! #### Frames (R23, R27, R48) -/

theorem exec_inputs {i : Instr} {t : State} (h : exec i s = .next t) : t.cmd = s.cmd ∧ t.rst = s.rst := by
  obtain ⟨c, rfl⟩ | ⟨f, -, -, rfl⟩ | ⟨f, -, -, rfl⟩ | ⟨f, -, -, -, rfl⟩ | ⟨f, -, -, -, rfl⟩ := exec_cases h
  · exact ⟨rfl, rfl⟩
  · exact ⟨rfl, rfl⟩
  · exact ⟨rfl, rfl⟩
  · exact ⟨rfl, rfl⟩
  · exact ⟨State.countSymbol_cmd _, State.countSymbol_rst _⟩

/-- `LDT`'s write leaves every other address as it reads, in any table. -/
theorem tblRead_storeEntry_of_ne (s : State) (sym len : Byte) (code : CodeWord) {a : Nat} (ha : a ≠ tblAddr sym) :
    tblRead (s.storeEntry sym (codeEntry len code)).tbl a = tblRead s.tbl a := by
  rw [State.storeEntry_tbl, tblWrite_codeEntry, tblRead_insert, if_neg ha.symm]

/-- Settles O37: a fault entry leaves all that any row's frame names; each row's own effect leaves what that row's does. -/
theorem frameOfEveryCommand : Obligations.FrameOfEveryCommand := by
  intro i s t h
  obtain ⟨hcmd, hrst⟩ := exec_inputs h
  refine ⟨exec_build h, hcmd, hrst, ?_⟩
  obtain ⟨c, rfl⟩ | ⟨f, rfl, -, rfl⟩ | ⟨f, rfl, -, rfl⟩ | ⟨f, rfl, -, -, rfl⟩ | ⟨f, rfl, -, -, rfl⟩ := exec_cases h
  · cases i <;> simp
  · exact ⟨rfl, fun _ => rfl⟩
  · exact fun _ => rfl
  · exact ⟨rfl, rfl, rfl, rfl, fun a ha => tblRead_storeEntry_of_ne s f.sym f.len f.code ha⟩
  · exact fun _ => by rw [State.countSymbol_tbl, State.append_tbl]

/-! #### Reset (R31, R150) -/

theorem step_of_reset {later : List Bool} (h : s.rst = true :: later) :
    step s = .next { s.applyReset with rst := later } := by
  simp [step, State.next, h]

/-- Settles O1: a step with reset asserted is `applyReset`, and the default build's `TBL_RESET` lists no entry. -/
theorem resetGivesTheStatedValues : Obligations.ResetGivesTheStatedValues := by
  refine ⟨fun s later h => ?_, rfl, rfl, rfl, rfl, rfl, fun _ => rfl⟩
  exact ⟨_, step_of_reset h, rfl, rfl, rfl, rfl, rfl, rfl, fun _ => ⟨rfl, fun _ => ⟨rfl, rfl⟩⟩⟩

theorem default_build_wf : Build.default.wf :=
  ⟨by decide, by decide, ⟨List.Pairwise.nil, List.forall_mem_nil _⟩, List.forall_mem_nil _⟩

/-- Settles O7: the default build is legal, and the reset state has an empty table and presents nothing. -/
theorem resetStateMeetsTheInvariant : Obligations.ResetStateMeetsTheInvariant := by
  have hbuild := default_build_wf
  have ⟨hchunk, _, htbl, hlegal⟩ := hbuild
  exact ⟨hbuild, by decide, hchunk, htbl, hlegal, by decide, fun _ => rfl, List.forall_mem_nil _⟩

/-! #### The pins (R161, R162) -/

section Pins

variable (ch : PinChoice) (inp : PinInputs) (ready : Bool) {p : PinState}

/-- `cmd_ready` is 0 whenever `err` is 1 (R161). -/
theorem PinState.cmdReady_of_err (h : p.core.err = true) : p.cmdReady ch = false := by
  simp [PinState.cmdReady, h]

/-- With nothing in progress and `cmd_ready` at 0 the work of an edge leaves the block as it is. -/
theorem PinState.work_core_of_idle (h : p.inflight = none) : (p.work ch inp false).core = p.core := by
  rcases PinState.work_core ch inp false p with hcore | ⟨w, hw | ⟨-, -, hready, -⟩, -⟩
  · exact hcore
  · rw [h] at hw
    cases hw
  · cases hready

/-- While `err` is 1 an edge without reset leaves the block as it is. -/
theorem PinState.edge_core_of_err (hidle : p.inflight = none) (herr : p.core.err = true)
    (hrst : inp.rst = false) : (p.edge ch inp).core = p.core := by
  have hidle' : (p.transfer inp).inflight = none := by rw [PinState.transfer_inflight, hidle]
  simp [PinState.edge, hrst, PinState.cmdReady_of_err ch herr, PinState.work_core_of_idle ch inp hidle']

theorem PinState.transfer_of_not_ready (h : inp.outReady = false) : p.transfer inp = p := by
  simp [PinState.transfer, h]

theorem PinState.finish_offering (p : PinState) : (p.finish ch).offering = p.offering := by
  rcases PinState.finish_cases ch p with e | ⟨w, t, -, -, e⟩ <;> rw [e]

/-- Finishing puts the new bytes behind those that wait. -/
theorem PinState.finish_pending_prefix (p : PinState) : p.pending <+: (p.finish ch).pending := by
  rcases PinState.finish_cases ch p with e | ⟨w, t, -, -, e⟩ <;> rw [e]
  exact List.prefix_append _ _

theorem PinState.work_offering (p : PinState) : (p.work ch inp ready).offering = p.offering := by
  unfold PinState.work
  split
  · rw [PinState.finish_offering, PinState.accept_offering]
  · rw [PinState.accept_offering, PinState.finish_offering]

theorem PinState.work_pending_prefix (p : PinState) : p.pending <+: (p.work ch inp ready).pending := by
  unfold PinState.work
  split
  · simpa using PinState.finish_pending_prefix ch (p.accept ready inp)
  · simpa using PinState.finish_pending_prefix ch p

/-- Raising `out_valid` never lowers it. -/
theorem PinState.offer_offering_of_offering (h : p.offering = true) : (p.offer ch).offering = true := by
  unfold PinState.offer
  split
  · rfl
  · exact h

/-- The oldest waiting byte stays the oldest. -/
theorem PinState.work_oldest (h : p.pending ≠ []) (d : Byte) :
    (p.work ch inp ready).pending.headD d = p.pending.headD d := by
  obtain ⟨later, hlater⟩ := PinState.work_pending_prefix ch inp ready p
  rw [← hlater, List.headD_eq_head?_getD, List.head?_append_of_ne_nil _ h, List.headD_eq_head?_getD]

end Pins

/-- Settles O56: a halted block has nothing in progress and accepts nothing, so an edge without reset leaves it; without
a transfer the waiting bytes only grow at the back, and the offer stays. -/
theorem pinsHoldErrAndOfferedBytes : Obligations.PinsHoldErrAndOfferedBytes := by
  intro ch ch' inp p hp
  obtain ⟨-, hoffer, hhalt⟩ := hp
  refine ⟨fun herr => PinState.cmdReady_of_err ch herr, fun hrst => ⟨fun herr => ?_, fun hvalid hready => ?_⟩⟩
  · have hcore := PinState.edge_core_of_err ch inp (hhalt herr) herr hrst
    exact ⟨(congrArg State.err hcore).trans herr, congrArg State.cause hcore⟩
  · have hedge : p.edge ch inp = (p.work ch inp (p.cmdReady ch)).offer ch := by
      simp [PinState.edge, hrst, PinState.transfer_of_not_ready inp hready]
    rw [hedge]
    constructor
    · have hwork := PinState.work_offering ch inp (p.cmdReady ch) p
      exact PinState.offer_offering_of_offering ch (hwork.trans hvalid)
    · simp only [PinState.outputs, PinState.offer_pending]
      exact PinState.work_oldest ch inp _ (hoffer hvalid) 0

end Sys2Proof.Machine

/-! ### The statements of the memory family (spec/20_memory.md): table writes, their visibility, the bytes of a flush
and of a step -/

namespace Sys2Proof.Machine

variable {s : State}

/-! #### Table writes (R41, R42) -/

/-- Settles O36: the laws of `tblWrite` on a canonical table; of all that a command can do only `LDT`'s store writes the
table, and it leaves every other address as it reads. -/
theorem tableWriteChangesOneEntry : Obligations.TableWriteChangesOneEntry := by
  refine ⟨fun m a e hm ha => ⟨tblWrite_wf hm ha e, ?_, fun a' ha' => ?_⟩, fun i s t a h hne => ?_⟩
  · rw [tblRead_write hm.1, if_pos rfl]
  · rw [tblRead_write hm.1, if_neg ha'.symm]
  · obtain ⟨c, rfl⟩ | ⟨f, -, -, rfl⟩ | ⟨f, -, -, rfl⟩ | ⟨f, hi, hw, -, rfl⟩ | ⟨f, -, -, -, rfl⟩ := exec_cases h
    · exact absurd rfl hne
    · exact absurd rfl hne
    · exact absurd rfl hne
    · refine ⟨f, hi, hw, ?_⟩
      by_contra ha
      exact hne (tblRead_storeEntry_of_ne s f.sym f.len f.code ha)
    · rw [State.countSymbol_tbl, State.append_tbl] at hne
      exact absurd rfl hne

/-! #### An `LDT` and the `PUT` after it (R50, R52) -/

theorem decode_encode_ldt (f : Fields) : decode (encode (.ldt f)) = .ldt f := by
  simp [decode, encode, Instr.op, Instr.fields]

theorem decode_encode_put (f : Fields) : decode (encode (.put f)) = .put f := by
  simp [decode, encode, Instr.op, Instr.fields]

/-- A running block that no reset is coming to runs its front record and keeps the rest of its inputs. -/
theorem step_of_rst_nil {w : Record} {ws : List Record} (hrun : s.running) (hrst : s.rst = []) (hcmd : s.cmd = w :: ws) :
    step s = exec (decode w) { s with cmd := ws } := by
  have hlow : s.resetLow := by simp [State.resetLow, hrst]
  rw [stepRunsTheDecodedInstruction s w ws hrun hlow hcmd]
  simp [hrst]

theorem ldtLegal_iff {b : Build} {f : Fields} :
    ldtLegal b f = true ↔ 1 ≤ f.len.toNat ∧ f.len.toNat ≤ b.lMax ∧ f.code.toNat < 2 ^ f.len.toNat := by
  simp [ldtLegal, Fields.spellsCode]

/-- A code that `LDT` may store is one that `PACK` may append (R62, R63). -/
theorem packLegal_iff_ldtLegal {b : Build} {f : Fields} : packLegal b f = true ↔ f.sym = 0 ∧ ldtLegal b f = true := by
  simp [packLegal, ldtLegal]

theorem exec_ldt_of_legal {f : Fields} (hw : s.build.tblWritable = true) (hf : ldtLegal s.build f = true) :
    exec (.ldt f) s = .next (s.storeEntry f.sym (codeEntry f.len f.code)) := by
  rw [exec_eq, execState, if_pos hw, if_pos hf]

theorem step_ldt_of_legal {f : Fields} {ws : List Record} (hrun : s.running) (hrst : s.rst = [])
    (hcmd : s.cmd = encode (.ldt f) :: ws) (hw : s.build.tblWritable = true) (hf : ldtLegal s.build f = true) :
    step s = .next (State.storeEntry { s with cmd := ws } f.sym (codeEntry f.len f.code)) := by
  rw [step_of_rst_nil hrun hrst hcmd, decode_encode_ldt]
  exact exec_ldt_of_legal hw hf

/-- `PUT` appends the code that the symbol's entry holds. -/
theorem exec_put_of_entry {sym len : Byte} {code : CodeWord} (hentry : s.entry sym = codeEntry len code) :
    exec (putOf sym) s = .next (s.append len.toNat code.toNat).countSymbol := by
  have hv : (s.entry sym).v = true := by rw [hentry]; rfl
  rw [putOf, exec_put_of_code rfl hv, hentry]
  rfl

theorem step_put_of_entry {sym len : Byte} {code : CodeWord} {ws : List Record} (hrun : s.running) (hrst : s.rst = [])
    (hcmd : s.cmd = encode (putOf sym) :: ws) (hentry : s.entry sym = codeEntry len code) :
    step s = .next (State.append { s with cmd := ws } len.toNat code.toNat).countSymbol := by
  rw [step_of_rst_nil hrun hrst hcmd, putOf, decode_encode_put]
  exact exec_put_of_entry (s := { s with cmd := ws }) hentry

/-- Settles O35: the first step stores the code, the second reads it back, appends it and counts a symbol that is not the
chunk's last. -/
theorem ldtIsVisibleToTheNextPut : Obligations.LdtIsVisibleToTheNextPut := by
  intro s f ws hrun hrst hw hlen hmax hcode hmore hcmd
  have hldt : ldtLegal s.build f = true := ldtLegal_iff.mpr ⟨hlen, hmax, hcode⟩
  have hpack : packLegal s.build { sym := 0, len := f.len, code := f.code } = true :=
    packLegal_iff_ldtLegal.mpr ⟨rfl, hldt⟩
  have hnotLast : s.symcnt ≠ s.build.chunkSymbols - 1 := by omega
  have hstore := step_ldt_of_legal hrun hrst hcmd hw hldt
  have hput := step_put_of_entry (ws := ws)
    (s := State.storeEntry { s with cmd := encode (putOf f.sym) :: ws } f.sym (codeEntry f.len f.code))
    hrun hrst rfl (by rw [storeEntry_entry, if_pos rfl])
  rw [State.countSymbol_more _ (by exact hnotLast)] at hput
  exact ⟨_, _, (run_next hstore 1).trans (run_next hput 0), exec_pack_of_legal hpack, rfl, rfl, rfl, rfl, hrun⟩

/-! #### `FLUSH` on the pending bits (R45, R94) -/

theorem exec_flush (s : State) : exec (.flush { sym := 0, len := 0, code := 0 }) s = .next s.endChunk := by
  rw [exec_eq, execState, if_pos (by decide)]

theorem endChunk_endChunk (s : State) : s.endChunk.endChunk = s.endChunk :=
  State.ext_fields rfl rfl rfl rfl rfl rfl rfl rfl rfl (List.append_nil _)

/-- The reference packing of the pending bits is the residual in one byte, if there are any. -/
theorem b2b_res (h : s.residualWf) : b2b s.res = if s.cnt.toNat > 0 then [s.acc.setWidth 8] else [] := by
  have hout := (endChunk_spec s h).1
  rw [State.endChunk_out] at hout
  exact (List.append_cancel_left hout).symm

/-- A byte of the pending bits is `ACC` itself, 7 bits of which `CNT` are in use. -/
theorem toNat_eq_acc_of_mem_b2b_res (h : s.residualWf) {b : Byte} (hb : b ∈ b2b s.res) : b.toNat = s.acc.toNat := by
  rw [b2b_res h] at hb
  split at hb
  · rw [List.mem_singleton.mp hb]
    exact BitVec.toNat_setWidth_of_le (by decide)
  · simp at hb

/-- Settles O29: `FLUSH` is `endChunk`, whose byte is `ACC`, and ending an ended chunk changes nothing. -/
theorem flushEmitsThePendingBitsOnce : Obligations.FlushEmitsThePendingBitsOnce := by
  intro s _ hres
  refine ⟨_, exec_flush s, (endChunk_spec s hres).1, fun b hb => ?_, ?_⟩
  · rw [toNat_eq_acc_of_mem_b2b_res hres hb]
    exact ⟨hres, s.acc.isLt⟩
  · rw [exec_flush, endChunk_endChunk]

/-! #### The bytes of one step (R48, R160) -/

theorem append_out_length (s : State) (len code : Nat) :
    (s.append len code).out.length = s.out.length + (s.cnt.toNat + len) / 8 := by
  rw [State.append_out, List.length_append, wholeBytes_length]

theorem endChunk_out_length (s : State) : s.endChunk.out.length = s.out.length + (s.cnt.toNat + 7) / 8 := by
  have hcnt := s.cnt.isLt
  rw [State.endChunk_out, List.length_append]
  split
  · rw [List.length_singleton]
    omega
  · rw [List.length_nil]
    omega

theorem countSymbol_out_length_le (s : State) :
    s.countSymbol.out.length ≤ s.out.length + (s.cnt.toNat + 7) / 8 := by
  by_cases hlast : s.symcnt = s.build.chunkSymbols - 1
  · rw [s.countSymbol_last hlast, endChunk_out_length]
  · rw [s.countSymbol_more hlast]
    exact Nat.le_add_right _ _

/-- A code and the flush after it emit no more bytes than hold the pending bits and the code's. -/
theorem append_countSymbol_out_length_le (s : State) (len code : Nat) :
    (s.append len code).countSymbol.out.length ≤ s.out.length + (s.cnt.toNat + len + 7) / 8 := by
  have hle := countSymbol_out_length_le (s.append len code)
  rw [append_out_length, append_cnt_toNat] at hle
  omega

theorem exec_out_length_le {i : Instr} {t : State} (hs : s.entriesLegal) (h : exec i s = .next t) :
    t.out.length ≤ s.out.length + (7 + s.build.lMax + 7) / 8 := by
  have hcnt := s.cnt.isLt
  obtain ⟨c, rfl⟩ | ⟨f, -, hf, rfl⟩ | ⟨f, -, -, rfl⟩ | ⟨f, -, -, -, rfl⟩ | ⟨f, -, -, hv, rfl⟩ := exec_cases h
  · exact Nat.le_add_right _ _
  · obtain ⟨-, hldt⟩ := packLegal_iff_ldtLegal.mp hf
    obtain ⟨-, hmax, -⟩ := ldtLegal_iff.mp hldt
    rw [append_out_length]
    omega
  · rw [endChunk_out_length]
    omega
  · exact Nat.le_add_right _ _
  · obtain ⟨-, hmax, -⟩ := entry_legal hs f.sym hv
    have hle := append_countSymbol_out_length_le s (s.entry f.sym).len.toNat (s.entry f.sym).code.toNat
    omega

/-- Settles O12: reset and waiting emit nothing, and a command emits at most the pending bits and one code. -/
theorem bytesOfOneStepAreBounded : Obligations.BytesOfOneStepAreBounded := by
  intro s t hs h
  obtain ⟨-, -, -, -, hlegal, -⟩ := hs
  obtain ⟨later, -, rfl⟩ | ⟨-, rfl⟩ | ⟨-, -, w, later, -, hexec⟩ := step_cases h
  · exact Nat.le_add_right _ _
  · exact Nat.le_add_right _ _
  · exact exec_out_length_le (s := { s with cmd := later, rst := s.rst.tail }) hlegal hexec

end Sys2Proof.Machine

/-! ### The statements of the encoding family (spec/30_encoding.md): records and commands, the verdict, the assembler, and
what every record does -/

namespace Sys2Proof.Machine

/-! #### Records and commands (R60, R61, R69) -/

@[simp] theorem recOp_encode (i : Instr) : recOp (encode i) = i.op.toNat := by
  rw [← opOf_toNat, encode, opOf_recordOf]

@[simp] theorem fieldsOf_encode (i : Instr) : fieldsOf (encode i) = i.fields := fieldsOf_recordOf i.op i.fields

/-- The row of the opcodes 0x8 to 0xF: its opcode is 8 plus the bits that its mask leaves open. -/
theorem reserved8F_op_toNat (low : BitVec 3) (f : Fields) : (Instr.reserved8F low f).op.toNat = low.toNat + 8 := by
  rw [Instr.op]
  decide +revert

theorem decode_of_eight_le {w : Record} (h : 8 ≤ recOp w) : decode w = .reserved8F (w.extractLsb' 0 3) (fieldsOf w) := by
  obtain ⟨k, hk⟩ := Nat.exists_eq_add_of_le' h
  rw [decode_eq, hk]
  rfl

/-- Settles O13: the opcode and the fields of a record are its command's, and the opcode chooses the command's row; a row that
spans several opcodes reads its open bits back. -/
theorem decodeOfEncodeIsTheCommand : Obligations.DecodeOfEncodeIsTheCommand := by
  intro i
  rw [decode_eq, recOp_encode, fieldsOf_encode]
  cases i with
  | pack f => rfl
  | flush f => rfl
  | ldt f => rfl
  | put f => rfl
  | reserved0 f => rfl
  | reserved5 f => rfl
  | reserved67 low f =>
    obtain rfl | rfl : low = 0 ∨ low = 1 := by decide +revert
    · rfl
    · rfl
  | reserved8F low f =>
    rw [reserved8F_op_toNat]
    exact congrArg (Instr.reserved8F · f) (lowBits_recordOf low f)

theorem decode_fields (w : Record) : (decode w).fields = fieldsOf w := by
  unfold decode
  split <;> rfl

theorem lowBits_toNat (w : Record) : (w.extractLsb' 0 3).toNat = recOp w % 8 := by
  simp [recOp]

theorem decode_op (w : Record) : (decode w).op = opOf w := by
  apply BitVec.eq_of_toNat_eq
  rw [opOf_toNat]
  have hlt := recOp_lt w
  by_cases h : 8 ≤ recOp w
  · rw [decode_of_eight_le h, reserved8F_op_toNat, lowBits_toNat]
    omega
  · rw [decode_eq]
    generalize recOp w = op at h
    interval_cases op <;> rfl

/-- Settles O14: the command keeps the opcode and the fields of its record, and a record is made of these. -/
theorem encodeOfDecodeIsTheRecord : Obligations.EncodeOfDecodeIsTheRecord := by
  intro w
  rw [encode, decode_op, decode_fields, recordOf_fieldsOf]

/-- The integer value of a record, by its numeric fields (R69). -/
theorem record_toNat (w : Record) :
    w.toNat = recOp w + 16 * recSym w + 4096 * recLen w + 2 ^ 20 * recCode w := by
  unfold recOp recSym recLen recCode
  omega

theorem encode_toNat (i : Instr) : (encode i).toNat =
    i.op.toNat + 16 * i.fields.sym.toNat + 4096 * i.fields.len.toNat + 2 ^ 20 * i.fields.code.toNat := by
  rw [record_toNat, recOp_encode, ← fieldsOf_sym, ← fieldsOf_len, ← fieldsOf_code, fieldsOf_encode]

/-- Settles O16: the weighted sum holds of every record, and a record's fields are its command's. -/
theorem recordValueIsTheWeightedSum : Obligations.RecordValueIsTheWeightedSum :=
  ⟨encode_toNat, encode_toNat _⟩

set_option exponentiation.threshold 300 in
/-- Settles O15, by decoding each record. -/
theorem sampleRecordsDecode : Obligations.SampleRecordsDecode := by
  unfold Obligations.SampleRecordsDecode
  decide

/-! #### The verdict (R66) -/

variable {b : Build} {w : Record}

theorem spellsCode_fieldsOf (lMax : Nat) (w : Record) : (fieldsOf w).spellsCode lMax = true ↔
    1 ≤ recLen w ∧ recLen w ≤ lMax ∧ recCode w < 2 ^ recLen w := by
  rw [Fields.spellsCode, decide_eq_true_eq, fieldsOf_len, fieldsOf_code]

theorem fieldsOf_sym_eq_zero (w : Record) : (fieldsOf w).sym = 0 ↔ recSym w = 0 := by
  rw [bitVec_eq_zero_iff, fieldsOf_sym]

theorem fieldsOf_len_eq_zero (w : Record) : (fieldsOf w).len = 0 ↔ recLen w = 0 := by
  rw [bitVec_eq_zero_iff, fieldsOf_len]

theorem fieldsOf_code_eq_zero (w : Record) : (fieldsOf w).code = 0 ↔ recCode w = 0 := by
  rw [bitVec_eq_zero_iff, fieldsOf_code]

theorem packLegal_fieldsOf (b : Build) (w : Record) : packLegal b (fieldsOf w) = true ↔
    recSym w = 0 ∧ 1 ≤ recLen w ∧ recLen w ≤ b.lMax ∧ recCode w < 2 ^ recLen w := by
  rw [packLegal, Bool.and_eq_true, decide_eq_true_eq, spellsCode_fieldsOf, fieldsOf_sym_eq_zero]

theorem flushLegal_fieldsOf (w : Record) : flushLegal (fieldsOf w) = true ↔
    recSym w = 0 ∧ recLen w = 0 ∧ recCode w = 0 := by
  rw [flushLegal, decide_eq_true_eq, fieldsOf_sym_eq_zero, fieldsOf_len_eq_zero, fieldsOf_code_eq_zero]

theorem putLegal_fieldsOf (w : Record) : putLegal (fieldsOf w) = true ↔ recLen w = 0 ∧ recCode w = 0 := by
  rw [putLegal, decide_eq_true_eq, fieldsOf_len_eq_zero, fieldsOf_code_eq_zero]

theorem decode_pack (h : recOp w = 1) : decode w = .pack (fieldsOf w) := by rw [decode_eq, h]; rfl
theorem decode_flush (h : recOp w = 2) : decode w = .flush (fieldsOf w) := by rw [decode_eq, h]; rfl
theorem decode_ldt (h : recOp w = 3) : decode w = .ldt (fieldsOf w) := by rw [decode_eq, h]; rfl
theorem decode_put (h : recOp w = 4) : decode w = .put (fieldsOf w) := by rw [decode_eq, h]; rfl

/-- The four opcodes that are legal in a build, `LDT`'s in a loadable one only. -/
theorem not_badOpcode_iff : ¬ badOpcode b w ↔
    recOp w = 1 ∨ recOp w = 2 ∨ (recOp w = 3 ∧ b.tblWritable = true) ∨ recOp w = 4 := by
  unfold badOpcode
  cases b.tblWritable <;> simp <;> omega

theorem verdict_of_badOpcode (h : badOpcode b w) : verdict b w = .illegalOpcode := by
  rw [verdict]
  rcases h with hreserved | ⟨hop, hrom⟩
  · by_cases h8 : 8 ≤ recOp w
    · rw [decode_of_eight_le h8, Instr.verdict]
    · have hop : recOp w = 0 ∨ recOp w = 5 ∨ recOp w = 6 ∨ recOp w = 7 := by omega
      rw [decode_eq]
      rcases hop with hop | hop | hop | hop <;> rw [hop] <;> rfl
  · rw [decode_ldt hop, Instr.verdict, hrom]
    rfl

theorem judge_of_iff {legal : Bool} {p : Prop} [Decidable p] (h : legal = true ↔ p) (i : Instr) :
    judge legal i = judge (decide p) i := by
  rw [judge, judge, ← Bool.decide_coe legal, decide_eq_decide.mpr h]

/-- Where the opcode is legal the verdict hangs on the operand rules alone (R66, steps 2 and 3). -/
theorem verdict_of_not_badOpcode (h : ¬ badOpcode b w) :
    verdict b w = judge (decide (¬ badOperand b w)) (decode w) := by
  unfold verdict badOperand
  obtain hrow | hrow | ⟨hrow, hwritable⟩ | hrow := not_badOpcode_iff.mp h
  · rw [decode_pack hrow, Instr.verdict]
    exact judge_of_iff (by rw [packLegal_fieldsOf]; omega) _
  · rw [decode_flush hrow, Instr.verdict]
    exact judge_of_iff (by rw [flushLegal_fieldsOf]; omega) _
  · rw [decode_ldt hrow, Instr.verdict, if_pos hwritable]
    exact judge_of_iff (by rw [ldtLegal, spellsCode_fieldsOf]; omega) _
  · rw [decode_put hrow, Instr.verdict]
    exact judge_of_iff (by rw [putLegal_fieldsOf]; omega) _

/-- The operands of a legal command, its must-be-zero fields written as 0 (R65). -/
theorem decode_of_legal (hop : ¬ badOpcode b w) (hoperand : ¬ badOperand b w) : decode w =
    if recOp w = 1 then .pack { sym := 0, len := BitVec.ofNat 8 (recLen w), code := BitVec.ofNat 255 (recCode w) }
    else if recOp w = 2 then .flush { sym := 0, len := 0, code := 0 }
    else if recOp w = 3 then
      .ldt { sym := BitVec.ofNat 8 (recSym w), len := BitVec.ofNat 8 (recLen w), code := BitVec.ofNat 255 (recCode w) }
    else .put { sym := BitVec.ofNat 8 (recSym w), len := 0, code := 0 } := by
  unfold badOperand at hoperand
  obtain hrow | hrow | ⟨hrow, -⟩ | hrow := not_badOpcode_iff.mp hop
  · have hsym : recSym w = 0 := by omega
    rw [decode_pack hrow, fieldsOf_eq, hsym]
    simp [hrow]
  · obtain ⟨hsym, hlen, hcode⟩ : recSym w = 0 ∧ recLen w = 0 ∧ recCode w = 0 := by omega
    rw [decode_flush hrow, fieldsOf_eq, hsym, hlen, hcode]
    simp [hrow]
  · rw [decode_ldt hrow, fieldsOf_eq]
    simp [hrow]
  · obtain ⟨hlen, hcode⟩ : recLen w = 0 ∧ recCode w = 0 := by omega
    rw [decode_put hrow, fieldsOf_eq, hlen, hcode]
    simp [hrow]

/-- An illegal verdict becomes its fault when the record is executed. -/
theorem exec_of_illegalOpcode {s : State} (h : verdict s.build w = .illegalOpcode) :
    exec (decode w) s = .next (s.raise .illegalOpcode) := by
  have hexec := execState_of_verdict (decode w) s
  rw [← verdict, h] at hexec
  rw [exec_eq, hexec]

theorem exec_of_illegalOperand {s : State} (h : verdict s.build w = .illegalOperand) :
    exec (decode w) s = .next (s.raise .illegalOperand) := by
  have hexec := execState_of_verdict (decode w) s
  rw [← verdict, h] at hexec
  rw [exec_eq, hexec]

/-- Settles O17: a bad opcode decides the verdict alone, else the operand rules do; the meanings check the same. -/
theorem verdictOnEveryRecord : Obligations.VerdictOnEveryRecord := by
  refine ⟨fun s w _ => ⟨exec_of_illegalOpcode, exec_of_illegalOperand⟩, fun b w => ⟨verdict_of_badOpcode, ?_, ?_⟩⟩
  · intro hop hoperand
    rw [verdict_of_not_badOpcode hop, decide_eq_false (not_not_intro hoperand)]
    rfl
  · intro hop hoperand
    rw [verdict_of_not_badOpcode hop, decide_eq_true hoperand, ← decode_of_legal hop hoperand]
    rfl

/-! #### The assembler (R70 to R73) -/

@[simp] theorem bitOfChar_digit (bit : Bool) : bitOfChar (if bit then '1' else '0') = some bit := by
  cases bit <;> rfl

theorem bitOfChar_eq_none {c : Char} (h : c ≠ '0' ∧ c ≠ '1') : bitOfChar c = none := by
  simp [bitOfChar, h]

/-- The text of a bit sequence reads back as the sequence. -/
@[simp] theorem bitsOfText_textOfBits (s : List Bool) : bitsOfText (textOfBits s) = some s := by
  induction s with
  | nil => rfl
  | cons bit s ih =>
    change bitsOfText ((if bit then '1' else '0') :: textOfBits s) = _
    rw [bitsOfText, bitOfChar_digit, ih]

/-- One character that is no digit spoils the text. -/
theorem bitsOfText_eq_none {t : List Char} (h : ∃ c ∈ t, c ≠ '0' ∧ c ≠ '1') : bitsOfText t = none := by
  obtain ⟨c, hc, hother⟩ := h
  induction t with
  | nil => cases hc
  | cons d t ih =>
    rw [bitsOfText]
    rcases List.mem_cons.mp hc with rfl | hc
    · rw [bitOfChar_eq_none hother]
    · rw [ih hc]
      cases bitOfChar d <;> rfl

/-- The fields of the `PACK` of a bit sequence (R72). -/
def packFields (c : List Bool) : Fields :=
  { sym := 0, len := BitVec.ofNat 8 c.length, code := BitVec.ofNat 255 (val c) }

theorem packPiece_eq : packPiece = Instr.pack ∘ packFields := rfl

section
variable {c : List Bool}

theorem packFields_len (h : c.length ≤ 255) : (packFields c).len.toNat = c.length :=
  Nat.mod_eq_of_lt (by omega)

theorem packFields_code (h : c.length ≤ 255) : (packFields c).code.toNat = val c :=
  Nat.mod_eq_of_lt ((val_lt c).trans_le (Nat.pow_le_pow_right (by decide) h))

/-- The `PACK` of 1 to `L_MAX` digits is legal, and its code is the digits (R62, R63). -/
theorem packLegal_packFields (hmax : b.lMax ≤ 255) (hpos : 1 ≤ c.length) (hle : c.length ≤ b.lMax) :
    packLegal b (packFields c) = true := by
  have h := hle.trans hmax
  rw [packLegal_iff_ldtLegal, ldtLegal_iff, packFields_len h, packFields_code h]
  exact ⟨rfl, hpos, hle, val_lt c⟩

theorem seq_packFields (h : c.length ≤ 255) : seq (packFields c).len.toNat (packFields c).code.toNat = c := by
  rw [packFields_len h, packFields_code h, seq_val]

end

/-- Settles O45: the digits are cut into pieces of at most `L_MAX`, and each piece is the code of its `PACK`. -/
theorem packsExpandsToTheDigits : Obligations.PacksExpandsToTheDigits := by
  intro b hb
  obtain ⟨-, ⟨hmin, hmax⟩, -⟩ := hb
  refine ⟨fun s => ⟨(pieces b.lMax s).map packFields, ?_, ?_, ?_, ?_⟩, fun t ht => ?_⟩
  · rw [packs, bitsOfText_textOfBits, List.map_map, packPiece_eq]
  · rw [List.length_map, pieces_length hmin]
  · intro f hf
    obtain ⟨c, hc, rfl⟩ := List.mem_map.mp hf
    obtain ⟨hpos, hle⟩ := pieces_mem hmin s c hc
    exact packLegal_packFields hmax hpos hle
  · have hdigits : ∀ c ∈ pieces b.lMax s, seq (packFields c).len.toNat (packFields c).code.toNat = c :=
      fun c hc => seq_packFields ((pieces_mem hmin s c hc).2.trans hmax)
    rw [List.flatMap_map, List.flatMap_def, List.map_congr_left hdigits, List.map_id', pieces_flatten hmin]
  · rw [packs, bitsOfText_eq_none ht]

set_option exponentiation.threshold 300 in
/-- Settles O46, by assembling each line. -/
theorem sampleLinesAssemble : Obligations.SampleLinesAssemble := by
  unfold Obligations.SampleLinesAssemble
  decide

/-! #### What every record does (R66 to R68) -/

/-- Settles O5: the block waits, and waiting takes one sample off the reset line. -/
theorem idleBlockKeepsItsState : Obligations.IdleBlockKeepsItsState := by
  intro s hrun hlow hcmd
  rw [step, next_of_resetLow hlow, hrun, hcmd]
  rfl

/-- Settles O18: `execState` is the next state. -/
theorem everyCommandHasANextState : Obligations.EveryCommandHasANextState :=
  fun i s => ⟨execState i s, exec_eq i s⟩

/-- Settles O20: the meaning of every reserved row is the fault entry, which writes `ERR` and `CAUSE`. -/
theorem reservedRowsRaiseIllegalOpcode : Obligations.ReservedRowsRaiseIllegalOpcode :=
  fun s f a c _ => ⟨exec_eq (.reserved0 f) s, exec_eq (.reserved5 f) s, exec_eq (.reserved67 a f) s,
    exec_eq (.reserved8F c f) s⟩

end Sys2Proof.Machine

/-! ### The statements of the reference family (spec/40_reference_codec.md): a run from reset against `ENC_STREAM` -/

namespace Sys2Proof.Machine

variable {s : State}

/-! #### The table that a run of `LDT`s leaves (R101, R110) -/

/-- The entry that an `LDT` of the code `c` stores. -/
def entryOfCode (c : List Bool) : Entry := codeEntry (packFields c).len (packFields c).code

/-- The table `m` after the `LDT`s of a list of codes, in order. -/
def loadTable (m : Memory) : List (Byte × List Bool) → Memory
  | [] => m
  | (b, c) :: codes => loadTable (tblWrite m (tblAddr b) (entryOfCode c)) codes

theorem ldtLegal_of_length {b : Build} {c : List Bool} (sym : Byte) (hmax : b.lMax ≤ 255) (hpos : 1 ≤ c.length)
    (hle : c.length ≤ b.lMax) : ldtLegal b { packFields c with sym := sym } = true := by
  have hpack := packLegal_packFields hmax hpos hle
  exact (packLegal_iff_ldtLegal.mp hpack).2

/-- The `LDT`s of a list of legal codes change the table and nothing else. -/
theorem run_ldts (codes : List (Byte × List Bool)) {ws : List Record} (hrun : s.running) (hrst : s.rst = [])
    (hw : s.build.tblWritable = true) (hmax : s.build.lMax ≤ 255)
    (hlegal : ∀ p ∈ codes, 1 ≤ p.2.length ∧ p.2.length ≤ s.build.lMax)
    (hcmd : s.cmd = (codes.map fun p => encode (ldtOf p.1 p.2)) ++ ws) :
    Host.Core.run core codes.length s = .next { s with cmd := ws, tbl := loadTable s.tbl codes } := by
  induction codes generalizing s with
  | nil =>
    rw [List.map_nil, List.nil_append] at hcmd
    subst hcmd
    rfl
  | cons p codes ih =>
    obtain ⟨hpos, hle⟩ := hlegal p List.mem_cons_self
    have hstep := step_ldt_of_legal hrun hrst hcmd hw (ldtLegal_of_length p.1 hmax hpos hle)
    rw [List.length_cons, run_next hstep]
    exact ih hrun hrst hw hmax (fun q hq => hlegal q (List.mem_cons_of_mem p hq)) rfl

/-- A symbol that no `LDT` names reads as before. -/
theorem tblRead_loadTable_of_notMem {codes : List (Byte × List Bool)} {b : Byte} (h : b ∉ codes.map Prod.fst)
    (m : Memory) : tblRead (loadTable m codes) (tblAddr b) = tblRead m (tblAddr b) := by
  induction codes generalizing m with
  | nil => rfl
  | cons p codes ih =>
    obtain ⟨hne, hrest⟩ := List.ne_and_not_mem_of_not_mem_cons h
    have haddr : tblAddr p.1 ≠ tblAddr b := fun e => hne (tblAddr_inj.mp e).symm
    rw [loadTable, ih hrest, entryOfCode, tblWrite_codeEntry, tblRead_insert, if_neg haddr]

/-- Where no symbol is named twice, a symbol that is named reads as the code the list gives it. -/
theorem tblRead_loadTable {codes : List (Byte × List Bool)} (hnodup : (codes.map Prod.fst).Nodup) (m : Memory) {b : Byte}
    {c : List Bool} (h : (b, c) ∈ codes) : tblRead (loadTable m codes) (tblAddr b) = entryOfCode c := by
  induction codes generalizing m with
  | nil => cases h
  | cons p codes ih =>
    obtain ⟨hfresh, hnodup⟩ := List.nodup_cons.mp hnodup
    rw [loadTable]
    rcases List.mem_cons.mp h with rfl | h
    · rw [tblRead_loadTable_of_notMem hfresh, entryOfCode, tblWrite_codeEntry, tblRead_insert, if_pos rfl]
    · exact ih hnodup _ h

/-! #### `ENC_STREAM` of symbols that all have a code (R86, R87) -/

section
variable {T : CodeTable} {code : Byte → List Bool}

/-- `ENC_STREAM` with every symbol's code given: the chunks' codes joined and packed, chunk after chunk. -/
def packedStream (code : Byte → List Bool) (n : Nat) (x : List Byte) : List Byte :=
  (pieces n x).flatMap fun chunk => b2b (chunk.flatMap code)

theorem codesOf_eq_flatMap {x : List Byte} (h : ∀ b ∈ x, T b = some (code b)) : codesOf T x = some (x.flatMap code) := by
  induction x with
  | nil => rfl
  | cons b x ih =>
    obtain ⟨hb, hx⟩ := List.forall_mem_cons.mp h
    rw [codesOf, hb, ih hx, List.flatMap_cons]

theorem encChunks_eq_flatMap {chunks : List (List Byte)} (h : ∀ chunk ∈ chunks, ∀ b ∈ chunk, T b = some (code b)) :
    encChunks T chunks = some (chunks.flatMap fun chunk => b2b (chunk.flatMap code)) := by
  induction chunks with
  | nil => rfl
  | cons chunk chunks ih =>
    obtain ⟨hchunk, hchunks⟩ := List.forall_mem_cons.mp h
    rw [encChunks, encChunk, codesOf_eq_flatMap hchunk, ih hchunks, List.flatMap_cons, Option.map_some]

theorem encStream_eq_packedStream {n : Nat} (hn : 1 ≤ n) {x : List Byte} (h : ∀ b ∈ x, T b = some (code b)) :
    encStream T n x = some (packedStream code n x) := by
  have hpieces : ∀ chunk ∈ pieces n x, ∀ b ∈ chunk, b ∈ x := fun chunk hchunk b hb => by
    rw [← pieces_flatten hn x]
    exact List.mem_flatten.mpr ⟨chunk, hchunk, hb⟩
  exact encChunks_eq_flatMap fun chunk hchunk b hb => h b (hpieces chunk hchunk b hb)

/-- The first chunk is the first `n` symbols. -/
theorem packedStream_eq {n : Nat} (hn : 1 ≤ n) (x : List Byte) :
    packedStream code n x = b2b ((x.take n).flatMap code) ++ packedStream code n (x.drop n) := by
  by_cases hx : x = []
  · subst hx
    simp [packedStream]
  · rw [packedStream, pieces_cons hn hx, List.flatMap_cons, packedStream]

/-! #### The `PUT`s of a stream and the last `FLUSH` (R88, R103, R155) -/

/-- What `OUT` holds once the symbols of `x` have been `PUT` and the last chunk flushed: the pending bits go before the codes
of the symbols that still belong to the current chunk. -/
def State.outAfter (code : Byte → List Bool) (s : State) (x : List Byte) : List Byte :=
  s.out ++ b2b (s.res ++ (x.take (s.build.chunkSymbols - s.symcnt)).flatMap code) ++
    packedStream code s.build.chunkSymbols (x.drop (s.build.chunkSymbols - s.symcnt))

/-- With nothing left to `PUT`, the flush emits the pending bits. -/
theorem State.outAfter_nil (h : s.residualWf) : s.outAfter code [] = s.endChunk.out := by
  rw [(endChunk_spec s h).1]
  simp [State.outAfter, packedStream]

/-- At the start of a chunk with nothing pending. -/
theorem State.outAfter_of_chunk_start (hpos : 1 ≤ s.build.chunkSymbols) (hres : s.res = []) (hsymcnt : s.symcnt = 0)
    (x : List Byte) : s.outAfter code x = s.out ++ packedStream code s.build.chunkSymbols x := by
  rw [State.outAfter, hres, hsymcnt, Nat.sub_zero, List.nil_append, List.append_assoc, ← packedStream_eq hpos]

/-- Packing what is pending after an append is packing the appended bits and all that follows, as if nothing had been
emitted in between. -/
theorem Appends.out_append_b2b {t : State} {bits : List Bool} (h : Appends s t bits) (more : List Bool) :
    t.out ++ b2b (t.res ++ more) = s.out ++ b2b (s.res ++ (bits ++ more)) := by
  obtain ⟨hout, hres⟩ := h
  rw [hout, hres, List.append_assoc, ← b2b_append, ← List.append_assoc, List.take_append_drop, List.append_assoc]
  rw [List.length_take, Nat.min_eq_left (Nat.mul_div_le _ 8)]
  omega

/-- Appending a symbol's code and counting the symbol takes the symbol off what is still to be `PUT`. -/
theorem Appends.outAfter_countSymbol {t : State} {b : Byte} (h : Appends s t (code b)) (ht : t.residualWf)
    (hbuild : t.build = s.build) (hsymcnt : t.symcnt = s.symcnt) (hlt : s.symcnt < s.build.chunkSymbols) (x : List Byte) :
    t.countSymbol.outAfter code x = s.outAfter code (b :: x) := by
  have hpos : 1 ≤ s.build.chunkSymbols := by omega
  by_cases hlast : s.symcnt + 1 = s.build.chunkSymbols
  · obtain ⟨hout, hres, hcount⟩ := h.countSymbol_last ht (by rw [hsymcnt, hbuild, hlast])
    have hleft : s.build.chunkSymbols - s.symcnt = 0 + 1 := by omega
    rw [State.outAfter_of_chunk_start (by rwa [State.countSymbol_build, hbuild]) hres hcount, hout,
      State.countSymbol_build, hbuild, State.outAfter, hleft]
    simp
  · obtain ⟨happ, hcount⟩ := h.countSymbol_more (by rwa [hbuild]) (by rwa [hsymcnt, hbuild])
    have hleft : s.build.chunkSymbols - s.symcnt = s.build.chunkSymbols - (s.symcnt + 1) + 1 := by omega
    rw [State.outAfter, happ.out_append_b2b, State.outAfter, State.countSymbol_build, hbuild, hcount, hsymcnt, hleft,
      List.take_succ_cons, List.drop_succ_cons, List.flatMap_cons]

theorem append_packFields_appends (s : State) {c : List Bool} (hlen : c.length ≤ 255) :
    Appends s (s.append (packFields c).len.toNat (packFields c).code.toNat) c := by
  have hcode : (packFields c).code.toNat < 2 ^ (packFields c).len.toNat := by
    rw [packFields_len hlen, packFields_code hlen]
    exact val_lt c
  have happ := append_appends s _ _ hcode
  rwa [seq_packFields hlen] at happ

/-- The block can take the `PUT`s of `x` from any point of a chunk: not halted, no reset to come, the registers in range, and
the table holds the codes of all of `x`. -/
structure State.ReadyToPut (code : Byte → List Bool) (x : List Byte) (s : State) : Prop where
  running : s.running
  rst : s.rst = []
  residual : s.residualWf
  symcnt : s.symcnt < s.build.chunkSymbols
  entries : ∀ b ∈ x, s.entry b = entryOfCode (code b) ∧ (code b).length ≤ 255

/-- One `PUT`: the block is ready for the rest, and what `OUT` will hold in the end stays. -/
theorem State.ReadyToPut.step_put {b : Byte} {x : List Byte} {ws : List Record} (h : s.ReadyToPut code (b :: x))
    (hcmd : s.cmd = encode (putOf b) :: ws) :
    ∃ t, step s = .next t ∧ t.ReadyToPut code x ∧ t.cmd = ws ∧ t.outAfter code x = s.outAfter code (b :: x) := by
  obtain ⟨hrun, hrst, -, hlt, hentries⟩ := h
  obtain ⟨⟨hentry, hlen⟩, hentries⟩ := List.forall_mem_cons.mp hentries
  let u := State.append { s with cmd := ws } (packFields (code b)).len.toNat (packFields (code b)).code.toNat
  have happ : Appends s u (code b) := append_packFields_appends { s with cmd := ws } hlen
  have hures : u.residualWf := append_residualWf _ _ _
  have hready : u.countSymbol.ReadyToPut code x := by
    refine ⟨u.countSymbol_err.trans hrun, u.countSymbol_rst.trans hrst, countSymbol_residualWf u hures, ?_, ?_⟩
    · rw [countSymbol_symcnt (s := u) hlt, State.countSymbol_build]
      exact Nat.mod_lt _ (Nat.zero_lt_of_lt hlt)
    · have htbl : u.countSymbol.tbl = s.tbl := u.countSymbol_tbl
      simpa only [State.entry, htbl] using hentries
  exact ⟨u.countSymbol, step_put_of_entry hrun hrst hcmd hentry, hready, u.countSymbol_cmd,
    happ.outAfter_countSymbol hures rfl rfl hlt x⟩

theorem step_flush {ws : List Record} (hrun : s.running) (hrst : s.rst = []) (hcmd : s.cmd = encode flushCommand :: ws) :
    step s = .next (State.endChunk { s with cmd := ws }) := by
  rw [step_of_rst_nil hrun hrst hcmd, decodeOfEncodeIsTheCommand]
  exact exec_flush _

/-- The `PUT`s of `x` and the last `FLUSH` run without a fault and complete (R155). -/
theorem State.ReadyToPut.run_puts_flush {x : List Byte} (h : s.ReadyToPut code x)
    (hcmd : s.cmd = (x.map putOf ++ [flushCommand]).map encode) :
    ∃ t, Host.Core.run core (x.length + 1) s = .next t ∧ t.out = s.outAfter code x ∧ t.acc = 0 ∧ t.complete := by
  induction x generalizing s with
  | nil =>
    have hstep := step_flush h.running h.rst hcmd
    exact ⟨_, run_next hstep 0, (State.outAfter_nil h.residual).symm, rfl, rfl, h.running, rfl, rfl⟩
  | cons b x ih =>
    obtain ⟨t, hstep, ht, htcmd, hout⟩ := h.step_put hcmd
    rw [List.length_cons, run_next hstep, ← hout]
    exact ih ht htcmd

end

/-! #### The block's output is `ENC_STREAM` (R88) -/

/-- The code that a list of codes gives a symbol; empty where it gives none. -/
def codeOf (codes : List (Byte × List Bool)) (b : Byte) : List Bool := (tableOf codes b).getD []

section
variable {codes : List (Byte × List Bool)} {b : Byte}

theorem tableOf_eq_codeOf (h : b ∈ codes.map Prod.fst) : tableOf codes b = some (codeOf codes b) := by
  obtain ⟨p, hp, rfl⟩ := List.mem_map.mp h
  have hsome : (tableOf codes p.1).isSome := List.lookup_isSome_iff.mpr ⟨p, hp, beq_self_eq_true _⟩
  obtain ⟨c, hc⟩ := Option.isSome_iff_exists.mp hsome
  rw [codeOf, hc, Option.getD_some]

theorem codeOf_mem (h : b ∈ codes.map Prod.fst) : (b, codeOf codes b) ∈ codes := by
  obtain ⟨before, after, hcodes, -⟩ := List.lookup_eq_some_iff.mp (tableOf_eq_codeOf h)
  have hmem : (b, codeOf codes b) ∈ before ++ (b, codeOf codes b) :: after :=
    List.mem_append_right before List.mem_cons_self
  rwa [← hcodes] at hmem

end

/-- Settles O44: the `LDT`s load every symbol's code, and the `PUT`s and the `FLUSH` then emit `ENC_STREAM` of the input. -/
theorem streamOutputEqualsTheReference : Obligations.StreamOutputEqualsTheReference := by
  intro s codes x hbuild hw hrun hacc hcnt hsymcnt hrst _ hnodup hlegal hx hcmd
  obtain ⟨hchunk, ⟨-, hmax⟩, -⟩ := hbuild
  have hload := run_ldts codes (ws := (x.map putOf ++ [flushCommand]).map encode) hrun hrst hw hmax hlegal
    (by simp [hcmd, runCommands])
  have hready : State.ReadyToPut (codeOf codes) x
      { s with cmd := (x.map putOf ++ [flushCommand]).map encode, tbl := loadTable s.tbl codes } := by
    refine ⟨hrun, hrst, by simp [hacc], hsymcnt.trans_lt hchunk, fun b hb => ?_⟩
    have hmem := codeOf_mem (hx b hb)
    exact ⟨tblRead_loadTable hnodup s.tbl hmem, (hlegal _ hmem).2.trans hmax⟩
  obtain ⟨t, hputs, hout, hacc', hcomplete⟩ := hready.run_puts_flush rfl
  refine ⟨t, packedStream (codeOf codes) s.build.chunkSymbols x,
    encStream_eq_packedStream hchunk fun b hb => tableOf_eq_codeOf (hx b hb), ?_, ?_, hacc', hcomplete⟩
  · rw [Nat.add_assoc, run_add _ _ hload, hputs]
  · refine hout.trans (State.outAfter_of_chunk_start hchunk ?_ hsymcnt x)
    simp [State.res, hcnt]

end Sys2Proof.Machine

/-! ### The statements of the reference family, continued: the bytes of `B2B`, its textual form and `bytes_to_bits` -/

namespace Sys2Proof.Machine

/-! #### The bytes of `B2B` (R82, R83) -/

/-- The integer a bit sequence spells, as the sum of its bits at their weights (R12). -/
theorem val_eq_sum (s : List Bool) :
    val s = ((List.range s.length).map fun j => (s[j]?.getD false).toNat * 2 ^ (s.length - 1 - j)).sum := by
  induction s with
  | nil => rfl
  | cons b s ih =>
    rw [val_cons, ih, List.length_cons, List.range_succ_eq_map, List.map_cons, List.map_map, List.sum_cons]
    simp [Function.comp_def, Nat.sub_sub, Nat.add_comm]

section
variable {α β : Type}

/-- Piece `i` of a list begins after `n * i` elements. -/
theorem pieces_getElem? {n : Nat} (hn : 1 ≤ n) {l : List α} {i : Nat} (h : n * i < l.length) :
    (pieces n l)[i]? = some ((l.drop (n * i)).take n) := by
  have hl : l ≠ [] := List.ne_nil_of_length_pos (Nat.zero_lt_of_lt h)
  rw [pieces_cons hn hl]
  induction i generalizing l with
  | zero => simp
  | succ i ih =>
    have hdrop : n * i < (l.drop n).length := by
      rw [List.length_drop]
      rw [Nat.mul_succ] at h
      omega
    have hne : l.drop n ≠ [] := List.ne_nil_of_length_pos (Nat.zero_lt_of_lt hdrop)
    rw [List.getElem?_cons_succ, pieces_cons hn hne, ih hdrop hne, List.drop_drop, Nat.mul_succ, Nat.add_comm]

theorem pieces_map {n : Nat} (hn : 1 ≤ n) (f : α → β) (l : List α) :
    pieces n (l.map f) = (pieces n l).map (List.map f) := by
  induction h : l.length using Nat.strong_induction_on generalizing l with
  | _ m ih =>
    by_cases hl : l = []
    · subst hl; rfl
    · have hpos := List.length_pos_iff.mpr hl
      have hrest := ih (l.drop n).length (by rw [List.length_drop]; omega) _ rfl
      rw [pieces_cons hn hl, pieces_cons hn (by simpa using hl), List.map_cons, List.map_take, ← List.map_drop, hrest]

end

/-- The bits of `s` that make byte `i` of `B2B(s)`. -/
def runOf (s : List Bool) (i : Nat) : List Bool := (s.drop (8 * i)).take 8

variable {s : List Bool} {i : Nat}

theorem runOf_length (s : List Bool) (i : Nat) : (runOf s i).length = min 8 (s.length - 8 * i) := by
  rw [runOf, List.length_take, List.length_drop]

theorem runOf_getElem? {j : Nat} (h : j < (runOf s i).length) : (runOf s i)[j]? = s[8 * i + j]? := by
  rw [runOf_length] at h
  rw [runOf, List.getElem?_take_of_lt (by omega), List.getElem?_drop]

/-- Byte `i` of `B2B(s)` is the integer that its run of bits spells. -/
theorem b2b_getElem?_toNat (h : 8 * i < s.length) : (b2b s)[i]?.map BitVec.toNat = some (val (runOf s i)) := by
  have hlen : (runOf s i).length ≤ 8 := by
    rw [runOf_length]
    exact Nat.min_le_left _ _
  have hval : val (runOf s i) < 2 ^ 8 := (val_lt _).trans_le (Nat.pow_le_pow_right (by decide) hlen)
  rw [b2b, List.getElem?_map, pieces_getElem? (by decide) h, ← runOf, Option.map_some, Option.map_some,
    BitVec.toNat_ofNat, Nat.mod_eq_of_lt hval]

/-- The formula of R82 for the run of a byte, which has `m` bits. -/
theorem val_runOf {m : Nat} (h : (runOf s i).length = m) :
    val (runOf s i) = ((List.range m).map fun j => (s[8 * i + j]?.getD false).toNat * 2 ^ (m - 1 - j)).sum := by
  subst h
  rw [val_eq_sum]
  congr 1
  apply List.map_congr_left
  intro j hj
  rw [runOf_getElem? (List.mem_range.mp hj)]

/-! #### The textual packing (R81) -/

theorem parsePiece_textOfBits (s : List Bool) : parsePiece (textOfBits s) = .ok (BitVec.ofNat 8 (val s)) := by
  rw [parsePiece, bitsOfText_textOfBits]

/-- Cutting the text is cutting the bits, and each piece of the text reads as its bits. -/
theorem bitsToBytesText_textOfBits (s : List Bool) : bitsToBytesText (textOfBits s) = .ok (b2b s) := by
  have hpieces : pieces 8 (textOfBits s) = (pieces 8 s).map textOfBits := pieces_map (by decide) _ s
  have hparse : parsePiece ∘ textOfBits = fun run => pure (BitVec.ofNat 8 (val run)) := funext parsePiece_textOfBits
  rw [bitsToBytesText, hpieces, List.mapM_map, hparse, List.mapM_pure]
  rfl

theorem parsePiece_cases (piece : List Char) :
    parsePiece piece = .error .invalidBitString ∨ ∃ b, parsePiece piece = .ok b := by
  rw [parsePiece]
  split
  · exact .inr ⟨_, rfl⟩
  · exact .inl rfl

/-- One piece that does not parse spoils the whole, whatever comes before it. -/
theorem mapM_parsePiece_of_mem {ps : List (List Char)} {p : List Char} (hp : p ∈ ps)
    (herr : parsePiece p = .error .invalidBitString) : ps.mapM parsePiece = .error .invalidBitString := by
  induction ps with
  | nil => cases hp
  | cons q ps ih =>
    rw [List.mapM_cons]
    rcases List.mem_cons.mp hp with rfl | hp
    · rw [herr]
      rfl
    · rw [ih hp]
      obtain hq | ⟨b, hq⟩ := parsePiece_cases q <;> rw [hq] <;> rfl

theorem bitsToBytesText_of_other {t : List Char} (h : ∃ c ∈ t, c ≠ '0' ∧ c ≠ '1') :
    bitsToBytesText t = .error .invalidBitString := by
  obtain ⟨c, hc, hother⟩ := h
  rw [← pieces_flatten (n := 8) (by decide) t] at hc
  obtain ⟨p, hp, hcp⟩ := List.mem_flatten.mp hc
  refine mapM_parsePiece_of_mem hp ?_
  rw [parsePiece, bitsOfText_eq_none ⟨c, hcp, hother⟩]

/-- Settles O42: a text over `0` and `1` parses piece by piece as its bits; any other character stands in some piece. -/
theorem textualPackingAgreesOrFails : Obligations.TextualPackingAgreesOrFails :=
  ⟨bitsToBytesText_textOfBits, fun _ h => bitsToBytesText_of_other h, rfl⟩

/-- Settles O39: each byte is the integer of its run, a whole run of 8 bits or the last one of `n mod 8`. -/
theorem referencePackingByteByByte : Obligations.ReferencePackingByteByByte := by
  intro s
  refine ⟨?_, fun i hi => ?_, fun hr => ?_, bitsToBytesText_textOfBits s⟩
  · rw [b2b_length]
    split <;> omega
  · have hlen : (runOf s i).length = 8 := by rw [runOf_length]; omega
    rw [b2b_getElem?_toNat (by omega), val_runOf hlen]
  · have hlen : (runOf s (s.length / 8)).length = s.length % 8 := by rw [runOf_length]; omega
    have hbyte := b2b_getElem?_toNat (s := s) (i := s.length / 8) (by omega)
    refine ⟨by rw [hbyte, val_runOf hlen], fun b hb => ?_⟩
    rw [hb, Option.map_some, Option.some_inj] at hbyte
    rw [hbyte, ← hlen]
    exact val_lt _

/-- The first `k` bytes of `B2B(s)` are the packing of the first `8 * k` bits. -/
theorem b2b_take {k : Nat} (h : 8 * k ≤ s.length) : (b2b s).take k = b2b (s.take (8 * k)) := by
  have hlen : (s.take (8 * k)).length = 8 * k := by rw [List.length_take, Nat.min_eq_left h]
  have hk : (b2b (s.take (8 * k))).length = k := by rw [b2b_length, hlen]; omega
  conv_lhs => rw [← List.take_append_drop (8 * k) s, b2b_append _ _ (by omega), List.take_left' hk]

/-- Settles O40: the laws of length and of whole bytes; two sequences of one bit each pack into two bytes, joined into
one. -/
theorem referencePackingConsequences : Obligations.ReferencePackingConsequences := by
  refine ⟨b2b_length, rfl, by decide, b2b_append, ⟨[true], [true], by decide⟩, fun s t => ?_⟩
  have hs : 8 * (s.length / 8) ≤ s.length := Nat.mul_div_le _ 8
  have hst : 8 * (s.length / 8) ≤ (s ++ t).length := by rw [List.length_append]; omega
  rw [b2b_take hst, b2b_take hs, List.take_append_of_le_length hs]

/-! #### `bytes_to_bits` (R84, R85) -/

/-- Settles O43: the digits of a byte other than 0 begin at its highest 1; two bytes of three digits make one of six. -/
theorem bytesToBitsIsNotADecoder : Obligations.BytesToBitsIsNotADecoder := by
  intro zeroDigits
  refine ⟨fun b hb => ?_, ?_⟩
  · have hne : b.toNat ≠ 0 := (bitVec_eq_zero_iff b).not.mp hb
    rw [digitsOfByte, if_neg hb]
    refine ⟨val_seq Nat.lt_log2_self, ?_⟩
    rw [seq_succ, List.head?_cons, Nat.testBit_log2 hne]
  · have hdigits : bytesToBits zeroDigits [7, 7] = [true, true, true, true, true, true] := rfl
    rw [hdigits]
    decide

end Sys2Proof.Machine

/-! ### The statements of the packer family (spec/41_pack_flush.md): `PACK` and `FLUSH` in full, splitting a `PACK`, and a
run of `PACK`s with one `FLUSH` -/

namespace Sys2Proof.Machine

variable {s : State}

/-! #### `PACK` in full (R91) -/

theorem packLegal_iff {b : Build} {f : Fields} : packLegal b f = true ↔
    f.sym = 0 ∧ 1 ≤ f.len.toNat ∧ f.len.toNat ≤ b.lMax ∧ f.code.toNat < 2 ^ f.len.toNat := by
  rw [packLegal_iff_ldtLegal, ldtLegal_iff]

theorem exec_pack_of_illegal {f : Fields} (h : ¬ packLegal s.build f = true) :
    exec (.pack f) s = .next (s.raise .illegalOperand) := by
  rw [exec_eq, execState, if_neg h]

/-- Settles O25: a legal `PACK` is one append, whose bytes `wholeBytes_mod` writes out; each broken operand rule makes it
illegal. -/
theorem packResult : Obligations.PackResult := by
  intro s f _
  refine ⟨opOf_recordOf _ f, fun hsym hlen hmax hcode => ?_, fun hbad => ?_⟩
  · rw [exec_pack_of_legal (packLegal_iff.mpr ⟨hsym, hlen, hmax, hcode⟩), State.append, wholeBytes_mod]
    rfl
  · refine exec_pack_of_illegal fun hlegal => ?_
    obtain ⟨hsym, hlen, hmax, hcode⟩ := packLegal_iff.mp hlegal
    rw [bitVec_eq_zero_iff f.len] at hbad
    rcases hbad with h | h
    · exact h hsym
    · omega

/-! #### Splitting a `PACK` (R92) -/

/-- The word that `x` and `y` make, joined, fits the length of both. -/
theorem joined_code_lt {a b x y : Nat} (hx : x < 2 ^ a) (hy : y < 2 ^ b) : x * 2 ^ b + y < 2 ^ (a + b) := by
  calc x * 2 ^ b + y < (x + 1) * 2 ^ b := by rw [Nat.succ_mul]; omega
    _ ≤ 2 ^ a * 2 ^ b := Nat.mul_le_mul_right _ hx
    _ = 2 ^ (a + b) := (pow_add 2 a b).symm

/-- What appending a bit sequence leaves in `OUT` and the residual hangs on the sequence alone. -/
theorem Appends.unique {t u : State} {bits : List Bool} (ht : Appends s t bits) (hu : Appends s u bits)
    (htres : t.residualWf) (hures : u.residualWf) : t.out = u.out ∧ t.cnt = u.cnt ∧ t.acc = u.acc := by
  obtain ⟨htout, htrest⟩ := ht
  obtain ⟨huout, hurest⟩ := hu
  exact ⟨htout.trans huout.symm, cnt_acc_of_res htres hures (htrest.trans hurest.symm)⟩

/-- Two appends are one append of the joined codes. -/
theorem append_append (s : State) {a b x y : Nat} (hx : x < 2 ^ a) (hy : y < 2 ^ b) :
    (s.append a x).append b y = s.append (a + b) (x * 2 ^ b + y) := by
  have htwo := (append_appends s a x hx).trans (append_appends (s.append a x) b y hy)
  have hone := append_appends s (a + b) (x * 2 ^ b + y) (joined_code_lt hx hy)
  rw [seq_add _ _ _ _ hy] at hone
  obtain ⟨hout, hcnt, hacc⟩ := htwo.unique hone (append_residualWf _ _ _) (append_residualWf _ _ _)
  exact State.ext_fields rfl hacc hcnt rfl rfl rfl rfl rfl rfl hout

/-- Settles O27: the two `PACK`s and the one are legal, and their appends agree. -/
theorem splittingAPackIsInvisible : Obligations.SplittingAPackIsInvisible := by
  intro s a b c x y z _ _ ha hb hmax hx hy hc hz
  have hfirst : packLegal s.build { sym := 0, len := a, code := x } = true :=
    packLegal_iff.mpr ⟨rfl, ha, (Nat.le_add_right _ _).trans hmax, hx⟩
  have hsecond : packLegal s.build { sym := 0, len := b, code := y } = true :=
    packLegal_iff.mpr ⟨rfl, hb, (Nat.le_add_left _ _).trans hmax, hy⟩
  have hjoined : packLegal s.build { sym := 0, len := c, code := z } = true := by
    rw [packLegal_iff, hc, hz]
    exact ⟨rfl, ha.trans (Nat.le_add_right _ _), hmax, joined_code_lt hx hy⟩
  refine ⟨_, _, exec_pack_of_legal hfirst, exec_pack_of_legal (s := s.append a.toNat x.toNat) hsecond, ?_⟩
  rw [exec_pack_of_legal hjoined, append_append s hx hy, hc, hz]

/-! #### `FLUSH` in full (R93) -/

theorem flushLegal_iff {f : Fields} : flushLegal f = true ↔ f.sym = 0 ∧ f.len = 0 ∧ f.code = 0 := decide_eq_true_iff

theorem exec_flush_of_illegal {f : Fields} (h : ¬ flushLegal f = true) :
    exec (.flush f) s = .next (s.raise .illegalOperand) := by
  rw [exec_eq, execState, if_neg h]

/-- Settles O28: a record whose fields are zero is its opcode, and `FLUSH` then ends the chunk; any non-zero field makes it
illegal. -/
theorem flushResult : Obligations.FlushResult := by
  rintro s ⟨sym, len, code⟩ _
  refine ⟨?_, fun hbad => exec_flush_of_illegal fun hlegal => ?_⟩
  · rintro rfl rfl rfl
    refine ⟨encode_toNat _, ?_⟩
    rw [exec_flush, BitVec.ofNat_toNat]
    rfl
  · obtain ⟨hsym, hlen, hcode⟩ := flushLegal_iff.mp hlegal
    exact hbad.elim (· hsym) (·.elim (· hlen) (· hcode))

/-! #### A run of `PACK`s and one `FLUSH` (R88, R95) -/

/-- The `PACK` of a code given by its length and value. -/
def packCode (p : Byte × CodeWord) : Instr := .pack { sym := 0, len := p.1, code := p.2 }

theorem step_pack_of_legal {f : Fields} {ws : List Record} (hrun : s.running) (hrst : s.rst = [])
    (hcmd : s.cmd = encode (.pack f) :: ws) (hf : packLegal s.build f = true) :
    step s = .next (State.append { s with cmd := ws } f.len.toNat f.code.toNat) := by
  rw [step_of_rst_nil hrun hrst hcmd, decodeOfEncodeIsTheCommand]
  exact exec_pack_of_legal hf

/-- Any number of legal `PACK`s run without a fault and append their codes joined. -/
theorem run_packs (cs : List (Byte × CodeWord)) {ws : List Record} (hrun : s.running) (hrst : s.rst = [])
    (hres : s.residualWf)
    (hlegal : ∀ p ∈ cs, 1 ≤ p.1.toNat ∧ p.1.toNat ≤ s.build.lMax ∧ p.2.toNat < 2 ^ p.1.toNat)
    (hcmd : s.cmd = (cs.map packCode).map encode ++ ws) :
    ∃ t, Host.Core.run core cs.length s = .next t ∧ Appends s t (cs.flatMap fun p => seq p.1.toNat p.2.toNat) ∧
      t.running ∧ t.rst = [] ∧ t.residualWf ∧ t.cmd = ws := by
  induction cs generalizing s with
  | nil => exact ⟨s, run_zero s, Appends.refl s, hrun, hrst, hres, hcmd⟩
  | cons p cs ih =>
    obtain ⟨hp, hlegal⟩ := List.forall_mem_cons.mp hlegal
    have ⟨_, _, hcode⟩ := hp
    let rest : State := { s with cmd := (cs.map packCode).map encode ++ ws }
    have hstep := step_pack_of_legal hrun hrst hcmd (packLegal_iff.mpr ⟨rfl, hp⟩)
    have hfirst : Appends s (rest.append p.1.toNat p.2.toNat) (seq p.1.toNat p.2.toNat) :=
      append_appends rest _ _ hcode
    obtain ⟨t, hruns, happ, hend⟩ :=
      ih (s := rest.append p.1.toNat p.2.toNat) hrun hrst (append_residualWf rest _ _) hlegal rfl
    exact ⟨t, (run_next hstep _).trans hruns, hfirst.trans happ, hend⟩

/-- Settles O30: the `PACK`s append the codes joined to no pending bits, and the `FLUSH` brings out all that is left. -/
theorem packsThenFlushEmitTheReferencePacking : Obligations.PacksThenFlushEmitTheReferencePacking := by
  intro s cs hrun hres hcnt hrst hlegal hcmd
  rw [List.map_append] at hcmd
  obtain ⟨t, hpacks, happ, htrun, htrst, htres, htcmd⟩ := run_packs cs hrun hrst hres hlegal hcmd
  have hflush := step_flush htrun htrst htcmd
  have hnone : s.res = [] := by rw [State.res, hcnt]; rfl
  have hout := happ.endChunk htres
  rw [hnone, List.nil_append] at hout
  exact ⟨_, (run_add _ 1 hpacks).trans (run_next hflush 0), hout, rfl, rfl, htrun, rfl⟩

end Sys2Proof.Machine

/-! ### The statements of the table family (spec/42_table_lookup.md): `LDT` and `PUT` in full, and compression from reset -/

namespace Sys2Proof.Machine

variable {s : State}

/-! #### `LDT` in full (R101) -/

theorem exec_ldt_of_illegal {f : Fields} (hw : s.build.tblWritable = true) (hf : ¬ ldtLegal s.build f = true) :
    exec (.ldt f) s = .next (s.raise .illegalOperand) := by
  rw [exec_eq, execState, if_pos hw, if_neg hf]

theorem exec_ldt_of_rom {f : Fields} (hrom : s.build.tblWritable = false) :
    exec (.ldt f) s = .next (s.raise .illegalOpcode) := by
  rw [exec_eq, execState, if_neg (Bool.eq_false_iff.mp hrom)]

/-- No command makes an entry invalid: the one that writes the table stores a valid entry. -/
theorem exec_keeps_entry_valid {i : Instr} {t : State} {sym : Byte} (h : exec i s = .next t)
    (hv : (s.entry sym).v = true) : (t.entry sym).v = true := by
  obtain ⟨c, rfl⟩ | ⟨f, -, -, rfl⟩ | ⟨f, -, -, rfl⟩ | ⟨f, -, -, -, rfl⟩ | ⟨f, -, -, -, rfl⟩ := exec_cases h
  · exact hv
  · exact hv
  · exact hv
  · rw [storeEntry_entry]
    split
    · rfl
    · exact hv
  · rw [State.entry, State.countSymbol_tbl]
    exact hv

/-- Settles O31: a legal `LDT` is one store, whose entry reads back; a broken operand rule makes it illegal. -/
theorem ldtResult : Obligations.LdtResult := by
  intro s f _
  refine ⟨opOf_recordOf _ f, fun hw hlen hmax hcode => ?_, fun hw hbad => ?_, exec_ldt_of_rom,
    fun i t sym => exec_keeps_entry_valid⟩
  · refine ⟨_, exec_ldt_of_legal hw (ldtLegal_iff.mpr ⟨hlen, hmax, hcode⟩), rfl, ?_, fun sym hsym => ?_⟩
    · rw [storeEntry_entry, if_pos rfl]
      rfl
    · rw [storeEntry_entry, if_neg hsym.symm]
  · refine exec_ldt_of_illegal hw fun hlegal => ?_
    obtain ⟨hlen, hmax, hcode⟩ := ldtLegal_iff.mp hlegal
    rw [bitVec_eq_zero_iff f.len] at hbad
    omega

/-! #### `PUT` in full (R102) -/

theorem exec_put_of_illegal {f : Fields} (hf : ¬ putLegal f = true) :
    exec (.put f) s = .next (s.raise .illegalOperand) := by
  rw [exec_eq, execState, if_neg hf]

theorem exec_put_of_noCode {f : Fields} (hf : putLegal f = true) (hv : (s.entry f.sym).v = false) :
    exec (.put f) s = .next (s.raise .noCode) := by
  rw [exec_eq, execState, if_pos hf, State.putSymbol, if_neg (Bool.eq_false_iff.mp hv)]

theorem putLegal_iff {f : Fields} : putLegal f = true ↔ f.len = 0 ∧ f.code = 0 := decide_eq_true_iff

/-- The byte that ends a chunk right after an append: the bits left over, right-aligned. -/
theorem append_acc_setWidth (s : State) (len code : Nat) : (s.append len code).acc.setWidth 8 =
    BitVec.ofNat 8 ((s.acc.toNat * 2 ^ len + code) % 2 ^ ((s.cnt.toNat + len) % 8)) := by
  rw [← BitVec.ofNat_toNat, append_acc_toNat]

theorem append_endChunk_out (s : State) (len code : Nat) : (s.append len code).endChunk.out = (s.append len code).out ++
    (if 0 < (s.cnt.toNat + len) % 8 then
      [BitVec.ofNat 8 ((s.acc.toNat * 2 ^ len + code) % 2 ^ ((s.cnt.toNat + len) % 8))] else []) := by
  rw [State.endChunk_out, append_cnt_toNat, append_acc_setWidth]

/-- Settles O32: `PUT` of a symbol with a code is an append and a count, which ends the chunk at its last symbol. -/
theorem putResult : Obligations.PutResult := by
  intro s f _
  refine ⟨opOf_recordOf _ f, fun hlen hcode hv => ?_, fun hbad => exec_put_of_illegal fun hlegal => ?_,
    fun hlen hcode hv => exec_put_of_noCode (putLegal_iff.mpr ⟨hlen, hcode⟩) hv⟩
  · rw [exec_put_of_code (putLegal_iff.mpr ⟨hlen, hcode⟩) hv]
    simp only [← wholeBytes_mod]
    congr 1
    split
    next hlast =>
      exact (State.countSymbol_last (s.append _ _) hlast).trans
        (State.ext_fields rfl rfl rfl rfl rfl rfl rfl rfl rfl (append_endChunk_out s _ _))
    next hmore => exact State.countSymbol_more (s.append _ _) hmore
  · obtain ⟨hlen, hcode⟩ := putLegal_iff.mp hlegal
    exact hbad.elim (· hlen) (· hcode)

/-! #### The host's frequency map (R111) -/

/-- One symbol of the stream, noted where it first occurs. -/
def noteSymbol (seen : List Byte) (b : Byte) : List Byte := if b ∈ seen then seen else seen ++ [b]

theorem countStream_symbols (x : List Byte) : (countStream x).map Prod.fst = x.foldl noteSymbol [] := by
  rw [countStream, List.map_map]
  exact List.map_id _

theorem mem_noteSymbol {seen : List Byte} {b c : Byte} : c ∈ noteSymbol seen b ↔ c ∈ seen ∨ c = b := by
  unfold noteSymbol
  split
  next hb => exact ⟨.inl, fun h => h.elim id (· ▸ hb)⟩
  next => simp

theorem nodup_noteSymbol {seen : List Byte} (h : seen.Nodup) (b : Byte) : (noteSymbol seen b).Nodup := by
  unfold noteSymbol
  split
  next => exact h
  next hb => exact List.nodup_append'.mpr ⟨h, List.nodup_singleton b, by simpa using hb⟩

/-- Noting a stream keeps what was noted, notes every symbol of the stream and none twice. -/
theorem foldl_noteSymbol (x seen : List Byte) :
    (seen.Nodup → (x.foldl noteSymbol seen).Nodup) ∧ ∀ b, b ∈ x.foldl noteSymbol seen ↔ b ∈ seen ∨ b ∈ x := by
  induction x generalizing seen with
  | nil => simp
  | cons a x ih =>
    obtain ⟨hnodup, hmem⟩ := ih (noteSymbol seen a)
    refine ⟨fun h => hnodup (nodup_noteSymbol h a), fun b => ?_⟩
    rw [List.foldl_cons, hmem, mem_noteSymbol, List.mem_cons, or_assoc]

/-- `countStream` gives a frequency map of the stream. -/
theorem countStream_counts (x : List Byte) : (countStream x).counts x := by
  obtain ⟨hnodup, hmem⟩ := foldl_noteSymbol x []
  rw [FrequencyMap.counts, countStream_symbols]
  refine ⟨hnodup List.nodup_nil, fun b => by simp [hmem], fun p hp => ?_⟩
  obtain ⟨b, -, rfl⟩ := List.mem_map.mp hp
  rfl

theorem countStream_ne_nil {x : List Byte} (hx : x ≠ []) : countStream x ≠ [] := by
  obtain ⟨b, hb⟩ := List.exists_mem_of_ne_nil x hx
  obtain ⟨-, hoccurs, -⟩ := countStream_counts x
  have hmem := (hoccurs b).mp hb
  exact mt List.map_eq_nil_iff.mpr (List.ne_nil_of_mem hmem)

/-! #### The host's builder (R114, R116) -/

section Builder

variable {tie : TieBreak}

/-- The collection in the order in which the builder takes nodes out of it: the lightest first. -/
theorem TieBreak.legal.reverse_sort (h : tie.legal) (c : List HuffmanNode) :
    (tie.sort c).reverse.Perm c ∧ (tie.sort c).reverse.Pairwise fun x y => x.freq ≤ y.freq := by
  obtain ⟨hperm, hsorted⟩ := h c
  exact ⟨(List.reverse_perm _).trans hperm, List.pairwise_reverse.mpr hsorted⟩

/-- The builder's loop on a collection that is not empty gives a tree, and what holds of the collection, whatever its order,
and is kept by merging two lightest nodes holds of that tree alone. -/
theorem buildLoop_induction (htie : tie.legal) {P : List HuffmanNode → Prop} (hperm : ∀ c d, c.Perm d → P c → P d)
    (hmerge : ∀ y x rest, y.freq ≤ x.freq → (∀ z ∈ rest, x.freq ≤ z.freq) → P (y :: x :: rest) →
      P (tie.merge x y :: rest)) {fuel : Nat} {c : List HuffmanNode} (hne : c ≠ []) (hfuel : c.length ≤ fuel) (hc : P c) :
    ∃ root, buildLoop tie fuel c = .ok root ∧ P [root] := by
  induction fuel generalizing c with
  | zero => exact absurd (List.length_eq_zero_iff.mp (Nat.le_zero.mp hfuel)) hne
  | succ fuel ih =>
    obtain ⟨hsort, hlight⟩ := htie.reverse_sort c
    have hP := hperm _ _ hsort.symm hc
    unfold buildLoop
    split
    next hnil => exact absurd (List.nil_perm.mp (hnil ▸ hsort)) hne
    next root hroot => exact ⟨root, rfl, hroot ▸ hP⟩
    next y x rest htaken =>
      rw [htaken] at hsort hlight hP
      obtain ⟨hy, hlight⟩ := List.pairwise_cons.mp hlight
      obtain ⟨hx, -⟩ := List.pairwise_cons.mp hlight
      have hback : (tie.merge x y :: rest).Perm (rest.reverse ++ [tie.merge x y]) :=
        ((List.reverse_perm rest).symm.cons _).trans (List.perm_append_singleton _ _).symm
      have hlen := hsort.length_eq
      rw [List.length_cons, List.length_cons] at hlen
      refine ih (by simp) ?_ (hperm _ _ hback (hmerge y x rest (hy x List.mem_cons_self) hx hP))
      rw [← hback.length_eq, List.length_cons]
      omega

theorem flatMap_symbols_leaves (m : FrequencyMap) :
    (m.map fun p => HuffmanNode.leaf p.2 p.1).flatMap HuffmanNode.symbols = m.map Prod.fst := by
  rw [List.flatMap_map, List.map_eq_flatMap]
  rfl

/-- A merge keeps the symbols of the collection. -/
theorem TieBreak.flatMap_symbols_merge (tie : TieBreak) (y x : HuffmanNode) (rest : List HuffmanNode) :
    ((tie.merge x y :: rest).flatMap HuffmanNode.symbols).Perm ((y :: x :: rest).flatMap HuffmanNode.symbols) := by
  have hxy := (tie.merge_symbols x y).trans List.perm_append_comm
  simpa using hxy.append_right (rest.flatMap HuffmanNode.symbols)

/-- The built tree has one leaf per entry of the map. -/
theorem buildTree_symbols (htie : tie.legal) {m : FrequencyMap} (hm : m ≠ []) :
    ∃ root, buildTree tie m = .ok root ∧ root.symbols.Perm (m.map Prod.fst) := by
  obtain ⟨root, hroot, hsymbols⟩ := buildLoop_induction htie
    (P := fun c => (c.flatMap HuffmanNode.symbols).Perm (m.map Prod.fst))
    (fun c d hcd hc => (hcd.flatMap_right _).symm.trans hc)
    (fun y x rest _ _ hc => (tie.flatMap_symbols_merge y x rest).trans hc)
    (mt List.map_eq_nil_iff.mp hm) (List.length_map _).le (List.Perm.of_eq (flatMap_symbols_leaves m))
  exact ⟨root, hroot, by simpa using hsymbols⟩

end Builder

/-! #### The lengths of the assigned codes (R118, R119) -/

theorem symbols_length_pos (n : HuffmanNode) : 1 ≤ n.symbols.length := by
  induction n with
  | leaf f b => exact le_rfl
  | internal f l r ihl _ =>
    rw [HuffmanNode.symbols, List.length_append]
    exact ihl.trans (Nat.le_add_right _ _)

/-- Below a path every code goes on from it, by at most one digit per leaf but the last. -/
theorem walkCodes_length (n : HuffmanNode) (path : List Bool) : ∀ p ∈ walkCodes path n,
    path.length ≤ p.2.length ∧ p.2.length + 1 ≤ path.length + n.symbols.length := by
  induction n generalizing path with
  | leaf f b => simp [walkCodes, HuffmanNode.symbols]
  | internal f l r ihl ihr =>
    have hl := symbols_length_pos l
    have hr := symbols_length_pos r
    intro p hp
    rw [HuffmanNode.symbols, List.length_append]
    rcases List.mem_append.mp hp with hp | hp
    · have hlen := ihl _ p hp
      simp only [List.length_append, List.length_singleton] at hlen
      omega
    · have hlen := ihr _ p hp
      simp only [List.length_append, List.length_singleton] at hlen
      omega

/-- Below an internal node every code has at least one digit more than the path to the node. -/
theorem walkCodes_internal_length {f : Nat} {l r : HuffmanNode} {path : List Bool} {p : Byte × List Bool}
    (hp : p ∈ walkCodes path (.internal f l r)) : path.length + 1 ≤ p.2.length := by
  rcases List.mem_append.mp hp with hp | hp
  · simpa using (walkCodes_length l _ p hp).1
  · simpa using (walkCodes_length r _ p hp).1

theorem assignCodes_length (bit : Bool) (n : HuffmanNode) : ∀ p ∈ assignCodes bit n,
    1 ≤ p.2.length ∧ p.2.length ≤ max 1 (n.symbols.length - 1) := by
  cases n with
  | leaf f b => simp [assignCodes]
  | internal f l r =>
    intro p hp
    have hlower := walkCodes_internal_length (f := f) hp
    have hupper := (walkCodes_length (.internal f l r) [] p hp).2
    rw [List.length_nil] at hlower hupper
    omega

/-- There are 256 byte values. -/
theorem length_le_of_nodup_bytes {l : List Byte} (h : l.Nodup) : l.length ≤ 256 := by
  have hcard : Fintype.card Byte = 256 := FinEnum.card_eq_fintypeCard.symm.trans (FinEnum.card_bitVec 8)
  exact hcard ▸ h.length_le_card

/-! #### Compression from reset (R105, R110) -/

theorem runCommands_length (codes : List (Byte × List Bool)) (x : List Byte) :
    (runCommands codes x).length = codes.length + x.length + 1 := by
  simp [runCommands, Nat.add_assoc]

/-- Settles O53: the built table gives every symbol of the stream one code, of a length that the default build holds, so the
block's output is `ENC_STREAM` (O44). -/
theorem compressionFromResetEmitsTheReferenceStream : Obligations.CompressionFromResetEmitsTheReferenceStream := by
  intro tie bit x htie hx
  obtain ⟨hnodup, hoccurs, -⟩ := countStream_counts x
  obtain ⟨root, hroot, hsymbols⟩ := buildTree_symbols htie (countStream_ne_nil hx)
  rw [← hsymbols.nodup_iff] at hnodup
  have hleaves := length_le_of_nodup_bytes hnodup
  have hlegal : ∀ p ∈ assignCodes bit root, 1 ≤ p.2.length ∧ p.2.length ≤ 255 := fun p hp => by
    have hlen := assignCodes_length bit root p hp
    omega
  obtain ⟨t, bytes, hstream, hrun, hout, -, hcomplete⟩ := streamOutputEqualsTheReference
    { State.reset with cmd := (runCommands (assignCodes bit root) x).map encode } (assignCodes bit root) x
    default_build_wf rfl rfl rfl rfl rfl rfl rfl
    (by rwa [assignCodes_symbols]) hlegal
    (fun b hb => by rw [assignCodes_symbols]; exact hsymbols.mem_iff.mpr ((hoccurs b).mp hb)) rfl
  refine ⟨root, runCommands (assignCodes bit root) x, t, bytes, hroot, by rw [compressCommands, hroot], hstream, ?_,
    hout, hcomplete⟩
  rw [runCommands_length, hrun]

end Sys2Proof.Machine

/-! ### The statements of the table construction family (spec/43_table_construction.md): the assigned codes, the built tree
and its weighted total -/

namespace Sys2Proof.Machine

/-! #### The codes of a tree exclude each other and have bounded lengths (R117, R118, R119) -/

/-- Below a path every code goes on from it. -/
theorem prefix_of_mem_walkCodes (n : HuffmanNode) (path : List Bool) : ∀ p ∈ walkCodes path n, path <+: p.2 := by
  induction n generalizing path with
  | leaf f b => simp [walkCodes]
  | internal f l r ihl ihr =>
    intro p hp
    rcases List.mem_append.mp hp with hp | hp
    · exact (List.prefix_append _ _).trans (ihl _ p hp)
    · exact (List.prefix_append _ _).trans (ihr _ p hp)

/-- Codes on the two sides of a node differ in the digit after the path to it. -/
theorem not_prefix_of_sides {path c d : List Bool} {bit : Bool} (hc : path ++ [bit] <+: c) (hd : path ++ [!bit] <+: d) :
    ¬ c <+: d := by
  intro hcd
  have hsides : path ++ [bit] <+: path ++ [!bit] := List.prefix_of_prefix_length_le (hc.trans hcd) hd (by simp)
  simp at hsides

theorem walkCodes_prefixFree (n : HuffmanNode) (path : List Bool) :
    (walkCodes path n).Pairwise fun p q => ¬ p.2 <+: q.2 ∧ ¬ q.2 <+: p.2 := by
  induction n generalizing path with
  | leaf f b => exact List.pairwise_singleton _ _
  | internal f l r ihl ihr =>
    refine List.pairwise_append.mpr ⟨ihl _, ihr _, fun p hp q hq => ?_⟩
    have hleft := prefix_of_mem_walkCodes l _ p hp
    have hright := prefix_of_mem_walkCodes r _ q hq
    exact ⟨not_prefix_of_sides hleft hright, not_prefix_of_sides hright hleft⟩

/-- Settles O48: two leaves part at some node, and their codes differ in the digit of that branch. -/
theorem assignedCodesArePrefixFree : Obligations.AssignedCodesArePrefixFree := by
  intro bit root
  cases root with
  | leaf f b => exact List.pairwise_singleton _ _
  | internal f l r => exact walkCodes_prefixFree _ []

/-- Settles O49: a code has one digit per internal node on its path, of which there are fewer than leaves. -/
theorem assignedCodeLengthsAreBounded : Obligations.AssignedCodeLengthsAreBounded :=
  ⟨assignCodes_length, fun _ _ _ => rfl⟩

/-! #### The Kraft sum (R119) -/

/-- Below a path the codes fill exactly the path's share. -/
theorem walkCodes_kraft (n : HuffmanNode) (path : List Bool) :
    ((walkCodes path n).map fun p => (1 / 2 : ℚ) ^ p.2.length).sum = (1 / 2) ^ path.length := by
  induction n generalizing path with
  | leaf f b => simp [walkCodes]
  | internal f l r ihl ihr =>
    rw [walkCodes, List.map_append, List.sum_append, ihl, ihr]
    simp only [List.length_append, List.length_singleton, pow_succ]
    ring

/-- Settles O50: splitting a leaf in two keeps the sum, and the walk of a root that is not a leaf begins at the empty path. -/
theorem kraftSumOfAssignedCodes : Obligations.KraftSumOfAssignedCodes :=
  ⟨fun _ f l r => (walkCodes_kraft (.internal f l r) []).trans (pow_zero _), fun _ _ _ => by simp [assignCodes]⟩

theorem assignCodes_kraft_le_one (bit : Bool) (n : HuffmanNode) :
    ((assignCodes bit n).map fun p => (1 / 2 : ℚ) ^ p.2.length).sum ≤ 1 := by
  obtain ⟨hinternal, hleaf⟩ := kraftSumOfAssignedCodes
  cases n with
  | leaf f b => rw [hleaf]; norm_num
  | internal f l r => exact (hinternal bit f l r).le

/-! #### The weights in a tree (R112, R114) -/

/-- The entries at the leaves, left to right. -/
def HuffmanNode.leaves : HuffmanNode → FrequencyMap
  | .leaf f b => [(b, f)]
  | .internal _ l r => l.leaves ++ r.leaves

/-- Every internal node weighs the sum of its children, as a merge makes it (R114). -/
def HuffmanNode.Weighted : HuffmanNode → Prop
  | .leaf _ _ => True
  | .internal f l r => f = l.freq + r.freq ∧ l.Weighted ∧ r.Weighted

/-- The sum of the internal nodes' weights: what all merges together add to the weighted path length. -/
def HuffmanNode.mergeCost : HuffmanNode → Nat
  | .leaf _ _ => 0
  | .internal f l r => f + l.mergeCost + r.mergeCost

theorem HuffmanNode.leaves_symbols (n : HuffmanNode) : n.leaves.map Prod.fst = n.symbols := by
  induction n with
  | leaf f b => rfl
  | internal f l r ihl ihr => rw [leaves, symbols, List.map_append, ihl, ihr]

theorem HuffmanNode.Weighted.freq_eq {n : HuffmanNode} (h : n.Weighted) : n.freq = (n.leaves.map Prod.snd).sum := by
  induction n with
  | leaf f b => simp [leaves, freq]
  | internal f l r ihl ihr =>
    obtain ⟨hf, hl, hr⟩ := h
    rw [leaves, List.map_append, List.sum_append, ← ihl hl, ← ihr hr, freq, hf]

section Merge

variable (tie : TieBreak) (x y : HuffmanNode)

theorem TieBreak.merge_leaves : (tie.merge x y).leaves.Perm (x.leaves ++ y.leaves) := by
  unfold TieBreak.merge
  split
  · exact List.perm_append_comm
  · exact List.Perm.refl _

theorem TieBreak.merge_mergeCost : (tie.merge x y).mergeCost = x.freq + y.freq + x.mergeCost + y.mergeCost := by
  unfold TieBreak.merge
  split
  · exact Nat.add_right_comm _ _ _
  · rfl

theorem TieBreak.merge_weighted {x y : HuffmanNode} (hx : x.Weighted) (hy : y.Weighted) : (tie.merge x y).Weighted := by
  unfold TieBreak.merge
  split
  · exact ⟨Nat.add_comm _ _, hy, hx⟩
  · exact ⟨rfl, hx, hy⟩

/-- A merge keeps the leaves of the collection. -/
theorem TieBreak.flatMap_leaves_merge (rest : List HuffmanNode) :
    ((tie.merge x y :: rest).flatMap HuffmanNode.leaves).Perm ((y :: x :: rest).flatMap HuffmanNode.leaves) := by
  have hxy := (tie.merge_leaves x y).trans List.perm_append_comm
  simpa using hxy.append_right (rest.flatMap HuffmanNode.leaves)

end Merge

/-! #### What the builder keeps (R113, R114, R116) -/

theorem buildTree_nil (tie : TieBreak) : buildTree tie [] = .error .treeConstructionFailure := rfl

section Built

variable {tie : TieBreak} {m : FrequencyMap} {root : HuffmanNode}

/-- What holds of the leaves, whatever their order, and is kept by merging two lightest nodes holds of the built tree. -/
theorem buildTree_induction (htie : tie.legal) (hroot : buildTree tie m = .ok root) {P : List HuffmanNode → Prop}
    (hperm : ∀ c d, c.Perm d → P c → P d)
    (hmerge : ∀ y x rest, y.freq ≤ x.freq → (∀ z ∈ rest, x.freq ≤ z.freq) → P (y :: x :: rest) →
      P (tie.merge x y :: rest)) (hleaves : P (m.map fun p => .leaf p.2 p.1)) : P [root] := by
  have hm : m ≠ [] := by
    rintro rfl
    cases hroot
  obtain ⟨root', hroot', hP⟩ := buildLoop_induction htie hperm hmerge (mt List.map_eq_nil_iff.mp hm)
    (List.length_map _).le hleaves
  cases hroot.symm.trans hroot'
  exact hP

theorem buildTree_leaves (htie : tie.legal) (hroot : buildTree tie m = .ok root) : root.leaves.Perm m := by
  have hall : ([root].flatMap HuffmanNode.leaves).Perm m :=
    buildTree_induction htie hroot (P := fun c => (c.flatMap HuffmanNode.leaves).Perm m)
      (fun c d hcd hc => (hcd.flatMap_right _).symm.trans hc)
      (fun y x rest _ _ hc => (tie.flatMap_leaves_merge x y rest).trans hc)
      (List.Perm.of_eq (by simp [List.flatMap_map, HuffmanNode.leaves]))
  simpa using hall

theorem buildTree_weighted (htie : tie.legal) (hroot : buildTree tie m = .ok root) : root.Weighted := by
  refine buildTree_induction htie hroot (P := fun c => ∀ n ∈ c, n.Weighted)
    (fun c d hcd hc n hn => hc n (hcd.symm.subset hn)) (fun y x rest _ _ hc => ?_) ?_ root List.mem_cons_self
  · obtain ⟨hy, hc⟩ := List.forall_mem_cons.mp hc
    obtain ⟨hx, hrest⟩ := List.forall_mem_cons.mp hc
    exact List.forall_mem_cons.mpr ⟨tie.merge_weighted hx hy, hrest⟩
  · exact List.forall_mem_map.mpr fun _ _ => trivial

/-- The builder's merges so far cost no more than `L` does: what is left of `L`, the nodes of the collection at depths that
meet the Kraft inequality, makes up the difference. -/
def MergesWithin (L : List (Nat × Nat)) (c : List HuffmanNode) : Prop :=
  ∃ M, (M.map Prod.fst).Perm (c.map HuffmanNode.freq) ∧ kraftSum M ≤ 1 ∧
    depthCost M + (c.map HuffmanNode.mergeCost).sum ≤ depthCost L

/-- The greedy merge costs no more than the map's counts do at any depths that meet the Kraft inequality (R119). -/
theorem buildTree_mergeCost_le (htie : tie.legal) (hroot : buildTree tie m = .ok root) {L : List (Nat × Nat)}
    (hL : (L.map Prod.fst).Perm (m.map Prod.snd)) (hkraft : kraftSum L ≤ 1) : root.mergeCost ≤ depthCost L := by
  obtain ⟨M, -, -, hcost⟩ := buildTree_induction htie hroot (P := MergesWithin L)
    (fun c d hcd ⟨M, hM, hk, hcost⟩ => ⟨M, hM.trans (hcd.map _), hk, (hcd.map HuffmanNode.mergeCost).sum_eq ▸ hcost⟩)
    (fun y x rest hyx hrest ⟨M, hM, hk, hcost⟩ => by
      obtain ⟨M', hM', hk', hcost'⟩ := lightest_pair_merged hM hyx (List.forall_mem_map.mpr hrest) hk
      refine ⟨M', by simpa [Nat.add_comm] using hM', hk', ?_⟩
      simp only [List.map_cons, List.sum_cons, TieBreak.merge_mergeCost] at hcost ⊢
      omega)
    ⟨L, by simpa [Function.comp_def, HuffmanNode.freq] using hL, hkraft,
      by simp [Function.comp_def, HuffmanNode.mergeCost]⟩
  simp only [List.map_cons, List.map_nil, List.sum_singleton] at hcost
  omega

end Built

/-- Settles O47: every merge keeps the leaves and weighs the sum of its children, and the walk visits every leaf once. -/
theorem builderGivesOneCodePerEntry : Obligations.BuilderGivesOneCodePerEntry := by
  intro tie bit m htie
  refine ⟨fun hm => hm ▸ buildTree_nil tie, fun hm => ?_⟩
  obtain ⟨root, hroot, hsymbols⟩ := buildTree_symbols htie hm
  refine ⟨root, hroot, ?_, by rwa [assignCodes_symbols]⟩
  rw [(buildTree_weighted htie hroot).freq_eq]
  exact ((buildTree_leaves htie hroot).map Prod.snd).sum_eq

/-! #### The weighted path length (R119) -/

section Weighted

variable {codes : List (Byte × List Bool)} {m : FrequencyMap}

theorem weightedLength_perm {m' : FrequencyMap} (h : m.Perm m') (codes : List (Byte × List Bool)) :
    weightedLength m codes = weightedLength m' codes := (h.map _).sum_eq

/-- Where no symbol has two codes, the table gives every code of the list. -/
theorem tableOf_of_mem (hnodup : (codes.map Prod.fst).Nodup) {p : Byte × List Bool} (hp : p ∈ codes) :
    tableOf codes p.1 = some p.2 := by
  have hsymbol := List.mem_map_of_mem (f := Prod.fst) hp
  rw [tableOf_eq_codeOf hsymbol]
  exact congrArg (some ∘ Prod.snd) (List.inj_on_of_nodup_map hnodup (codeOf_mem hsymbol) hp rfl)

/-- The counts of a map at the lengths of their symbols' codes. -/
def codeDepths (m : FrequencyMap) (codes : List (Byte × List Bool)) : List (Nat × Nat) :=
  m.map fun p => (p.2, (codeOf codes p.1).length)

theorem codeDepths_weights (m : FrequencyMap) (codes : List (Byte × List Bool)) :
    (codeDepths m codes).map Prod.fst = m.map Prod.snd := List.map_map

theorem depthCost_codeDepths (m : FrequencyMap) (codes : List (Byte × List Bool)) :
    depthCost (codeDepths m codes) = weightedLength m codes := congrArg List.sum List.map_map

theorem kraftSum_codeDepths (hnodup : (codes.map Prod.fst).Nodup) (hm : (codes.map Prod.fst).Perm (m.map Prod.fst)) :
    kraftSum (codeDepths m codes) = (codes.map fun p => (1 / 2 : ℚ) ^ p.2.length).sum := by
  calc kraftSum (codeDepths m codes)
      = ((m.map Prod.fst).map fun b => (1 / 2 : ℚ) ^ (codeOf codes b).length).sum := by
        simp [kraftSum, codeDepths, Function.comp_def]
    _ = ((codes.map Prod.fst).map fun b => (1 / 2 : ℚ) ^ (codeOf codes b).length).sum := (hm.symm.map _).sum_eq
    _ = (codes.map fun p => (1 / 2 : ℚ) ^ p.2.length).sum := by
        rw [List.map_map]
        refine congrArg List.sum (List.map_congr_left fun p hp => ?_)
        rw [Function.comp_apply, codeOf, tableOf_of_mem hnodup hp, Option.getD_some]

/-- A weighted tree spends its weight on every digit of the path to it, and below it its internal nodes' weights. -/
theorem HuffmanNode.Weighted.walkCodes_cost {n : HuffmanNode} (h : n.Weighted) {T : CodeTable} (path : List Bool)
    (hT : ∀ p ∈ walkCodes path n, T p.1 = some p.2) :
    (n.leaves.map fun p => p.2 * ((T p.1).getD []).length).sum = n.freq * path.length + n.mergeCost := by
  induction n generalizing path with
  | leaf f b => simp [leaves, freq, mergeCost, hT (b, path) List.mem_cons_self]
  | internal f l r ihl ihr =>
    obtain ⟨hf, hl, hr⟩ := h
    rw [leaves, List.map_append, List.sum_append,
      ihl hl _ fun p hp => hT p (List.mem_append_left _ hp), ihr hr _ fun p hp => hT p (List.mem_append_right _ hp)]
    simp only [freq, mergeCost, hf, List.length_append, List.length_singleton]
    ring

/-- The weighted path length of a weighted tree with at least two leaves is the sum of its internal nodes' weights. -/
theorem weightedLength_internal {f : Nat} {l r : HuffmanNode} (hweighted : (HuffmanNode.internal f l r).Weighted)
    (hleaves : (HuffmanNode.internal f l r).leaves.Perm m) (hnodup : (m.map Prod.fst).Nodup) (bit : Bool) :
    weightedLength m (assignCodes bit (.internal f l r)) = (HuffmanNode.internal f l r).mergeCost := by
  rw [← (hleaves.map Prod.fst).nodup_iff, HuffmanNode.leaves_symbols, ← assignCodes_symbols bit] at hnodup
  rw [← weightedLength_perm hleaves]
  exact (hweighted.walkCodes_cost [] fun p hp => tableOf_of_mem hnodup hp).trans (Nat.zero_add _)

theorem weightedLength_single_leaf (f g : Nat) (b : Byte) (bit : Bool) :
    weightedLength [(b, f)] (assignCodes bit (.leaf g b)) = f := by
  simp [weightedLength, assignCodes, tableOf]

theorem eq_leaf_of_symbols {n : HuffmanNode} {b : Byte} (h : n.symbols = [b]) : ∃ f, n = .leaf f b := by
  cases n with
  | leaf f c => exact ⟨f, congrArg _ (List.singleton_inj.mp h)⟩
  | internal f l r =>
    have hlength := congrArg List.length h
    have hl := symbols_length_pos l
    have hr := symbols_length_pos r
    rw [HuffmanNode.symbols, List.length_append, List.length_singleton] at hlength
    omega

end Weighted

/-- Settles O51: the built tree costs what its merges do, and by the exchange argument no depths of the counts that meet the
Kraft inequality, as the other tree's do, cost less; a single leaf leaves the other tree no choice. -/
theorem builtTreeMinimisesTheWeightedLength : Obligations.BuiltTreeMinimisesTheWeightedLength := by
  intro tie bit bit' m root other htie hnodup hroot hother
  have hleaves := buildTree_leaves htie hroot
  cases root with
  | leaf f b =>
    obtain rfl := List.singleton_perm.mp hleaves
    obtain ⟨g, rfl⟩ := eq_leaf_of_symbols (List.perm_singleton.mp hother)
    rw [weightedLength_single_leaf, weightedLength_single_leaf]
  | internal f l r =>
    have hcodes : ((assignCodes bit' other).map Prod.fst).Perm (m.map Prod.fst) := by rwa [assignCodes_symbols]
    calc weightedLength m (assignCodes bit (.internal f l r))
        = (HuffmanNode.internal f l r).mergeCost :=
          weightedLength_internal (buildTree_weighted htie hroot) hleaves hnodup bit
      _ ≤ depthCost (codeDepths m (assignCodes bit' other)) :=
          buildTree_mergeCost_le htie hroot (List.Perm.of_eq (codeDepths_weights _ _))
            ((kraftSum_codeDepths (hcodes.nodup_iff.mpr hnodup) hcodes).trans_le (assignCodes_kraft_le_one bit' other))
      _ = weightedLength m (assignCodes bit' other) := depthCost_codeDepths _ _

/-! #### What a change of tie-break keeps (R115, R121) -/

theorem buildTree_weightedLength_le {tie tie' : TieBreak} {m m' : FrequencyMap} {root root' : HuffmanNode} (bit bit' : Bool)
    (htie : tie.legal) (htie' : tie'.legal) (hnodup : (m.map Prod.fst).Nodup) (hm : m.Perm m')
    (hroot : buildTree tie m = .ok root) (hroot' : buildTree tie' m' = .ok root') :
    weightedLength m (assignCodes bit root) ≤ weightedLength m' (assignCodes bit' root') := by
  have hsymbols := ((buildTree_leaves htie' hroot').trans hm.symm).map Prod.fst
  rw [HuffmanNode.leaves_symbols] at hsymbols
  rw [← weightedLength_perm hm]
  exact builtTreeMinimisesTheWeightedLength tie bit bit' m root root' htie hnodup hroot hsymbols

/-- A stable sort by descending frequency of the collection as `arrange` orders it; of the two removed nodes the
lightest becomes the right child. -/
def sortedTieBreak (arrange : List HuffmanNode → List HuffmanNode) : TieBreak :=
  { sort := fun c => (arrange c).insertionSort fun x y => y.freq ≤ x.freq, swap := fun _ _ => false }

theorem sortedTieBreak_legal {arrange : List HuffmanNode → List HuffmanNode} (h : ∀ c, (arrange c).Perm c) :
    (sortedTieBreak arrange).legal := by
  intro c
  have htotal : Std.Total fun x y : HuffmanNode => y.freq ≤ x.freq := ⟨fun x y => Nat.le_total y.freq x.freq⟩
  have htrans : IsTrans HuffmanNode fun x y => y.freq ≤ x.freq := ⟨fun _ _ _ hxy hyz => hyz.trans hxy⟩
  exact ⟨(List.perm_insertionSort _ _).trans (h c), List.pairwise_insertionSort _ _⟩

/-- R121's tree of lengths 3, 3, 1, 2: the parent of A and B is merged with D, and their parent with C. -/
def unbalancedTree : HuffmanNode :=
  .internal 6 (.internal 4 (.leaf 2 0x44) (.internal 2 (.leaf 1 0x41) (.leaf 1 0x42))) (.leaf 2 0x43)

/-- R121's tree of lengths 2, 2, 2, 2: C is merged with D, and their parent with that of A and B. -/
def balancedTree : HuffmanNode :=
  .internal 6 (.internal 4 (.leaf 2 0x43) (.leaf 2 0x44)) (.internal 2 (.leaf 1 0x42) (.leaf 1 0x41))

/-- Settles O52: each of two built trees costs no more than the other (O51); the stable sort of the collection and that of the
collection reversed give R121's two trees. -/
theorem weightedTotalIsTheSameUnderEveryTieBreak : Obligations.WeightedTotalIsTheSameUnderEveryTieBreak := by
  refine ⟨fun tie tie' bit bit' m m' root root' htie htie' hnodup hm hroot hroot' => le_antisymm ?_ ?_, ?_⟩
  · exact buildTree_weightedLength_le bit bit' htie htie' hnodup hm hroot hroot'
  · exact buildTree_weightedLength_le bit' bit htie' htie ((hm.map Prod.fst).nodup_iff.mp hnodup) hm.symm hroot' hroot
  · exact ⟨sortedTieBreak id, sortedTieBreak List.reverse, unbalancedTree, balancedTree,
      sortedTieBreak_legal List.Perm.refl, sortedTieBreak_legal List.reverse_perm,
      by decide, by decide, by decide, by decide, by decide, by decide⟩

end Sys2Proof.Machine

/-! ### The statements of the exception family (spec/60_exceptions.md): the three faults, their order, what they leave, and
the halt that only reset ends -/

namespace Sys2Proof.Machine

variable {s : State} {w : Record}

/-! #### A fault entry is precise (R130, R134) -/

/-- A command ends in a fault entry or leaves both flags as they are. -/
theorem exec_flags_cases {i : Instr} {t : State} (h : exec i s = .next t) :
    (∃ c, t = s.raise c) ∨ (t.err = s.err ∧ t.cause = s.cause) := by
  obtain hfault | ⟨f, -, -, rfl⟩ | ⟨f, -, -, rfl⟩ | ⟨f, -, -, -, rfl⟩ | ⟨f, -, -, -, rfl⟩ := exec_cases h
  · exact .inl hfault
  · exact .inr ⟨rfl, rfl⟩
  · exact .inr ⟨rfl, rfl⟩
  · exact .inr ⟨rfl, rfl⟩
  · exact .inr ⟨State.countSymbol_err _, State.countSymbol_cause _⟩

/-- Settles O24: a fault entry writes the two flags alone, and no other outcome of a command writes them. -/
theorem faultsArePrecise : Obligations.FaultsArePrecise := by
  intro i s t hrun h
  obtain ⟨c, rfl⟩ | ⟨herr, hcause⟩ := exec_flags_cases h
  · exact ⟨fun _ => ⟨causeCode_ne_zero c, rfl⟩, fun hnofault => by simp at hnofault⟩
  · exact ⟨fun hfault => by simp [herr, hrun] at hfault, fun _ => hcause⟩

/-! #### Each fault and the records that raise it (R131 to R133) -/

/-- Settles O19: a reserved opcode, or `LDT`'s in a ROM build, is a bad opcode, which alone decides the verdict. -/
theorem illegalOpcodeFault : Obligations.IllegalOpcodeFault := by
  intro s w _ hop
  have hbad : badOpcode s.build w := by
    rcases or_assoc.mpr hop with hreserved | hrom
    · exact .inl (by omega)
    · exact .inr hrom
  exact exec_of_illegalOpcode (verdict_of_badOpcode hbad)

theorem exec_of_badOperand (hop : ¬ badOpcode s.build w) (hoperand : badOperand s.build w) :
    exec (decode w) s = .next (s.raise .illegalOperand) := by
  obtain ⟨-, hverdict, -⟩ := verdictOnEveryRecord.2 s.build w
  exact exec_of_illegalOperand (hverdict hop hoperand)

/-- Settles O21: where the opcode is legal, a broken operand rule decides the verdict. -/
theorem illegalOperandFault : Obligations.IllegalOperandFault :=
  fun _ _ _ hop hoperand => exec_of_badOperand hop hoperand

/-- Settles O22: the operands are legal and the entry holds no code. -/
theorem putWithoutCodeFault : Obligations.PutWithoutCodeFault :=
  fun _ _ _ hv => exec_put_of_noCode rfl hv

/-! #### The order of the faults, and reset before them all (R136) -/

theorem entry_fieldsOf (s : State) (w : Record) : s.entry (fieldsOf w).sym = s.entry (BitVec.ofNat 8 (recSym w)) := by
  rw [fieldsOf_eq]

theorem exec_of_missingCode (hoperand : ¬ badOperand s.build w) (hcode : missingCode s w) :
    exec (decode w) s = .next (s.raise .noCode) := by
  obtain ⟨hput, hv⟩ := hcode
  have hlegal : putLegal (fieldsOf w) = true := by
    unfold badOperand at hoperand
    rw [putLegal_fieldsOf]
    omega
  rw [decode_put hput]
  exact exec_put_of_noCode hlegal (by rw [entry_fieldsOf, hv])

theorem exec_flush_of_legal {f : Fields} (h : flushLegal f = true) : exec (.flush f) s = .next s.endChunk := by
  rw [exec_eq, execState, if_pos h]

/-- A record to which none of the three faults applies leaves both flags, in every row (R134). -/
theorem exec_keeps_flags_of_no_fault (hop : ¬ badOpcode s.build w) (hoperand : ¬ badOperand s.build w)
    (hcode : ¬ missingCode s w) : ∃ t, exec (decode w) s = .next t ∧ t.err = s.err ∧ t.cause = s.cause := by
  unfold badOperand at hoperand
  obtain hrow | hrow | ⟨hrow, hwritable⟩ | hrow := not_badOpcode_iff.mp hop
  · rw [decode_pack hrow]
    exact ⟨_, exec_pack_of_legal (by rw [packLegal_fieldsOf]; omega), rfl, rfl⟩
  · rw [decode_flush hrow]
    exact ⟨_, exec_flush_of_legal (by rw [flushLegal_fieldsOf]; omega), rfl, rfl⟩
  · rw [decode_ldt hrow]
    exact ⟨_, exec_ldt_of_legal hwritable (by rw [ldtLegal, spellsCode_fieldsOf]; omega), rfl, rfl⟩
  · have hv : (s.entry (fieldsOf w).sym).v = true := by
      rw [entry_fieldsOf]
      exact Bool.eq_true_of_not_eq_false fun hv => hcode ⟨hrow, hv⟩
    rw [decode_put hrow]
    exact ⟨_, exec_put_of_code (by rw [putLegal_fieldsOf]; omega) hv, State.countSymbol_err _, State.countSymbol_cause _⟩

/-- Settles O23: the first condition that holds decides the fault entry, and where none holds the flags stay; a step with
reset asserted is `applyReset`. -/
theorem firstFaultInPriorityOrderIsReported : Obligations.FirstFaultInPriorityOrderIsReported := by
  refine ⟨fun s w hrun => ?_, fun s hrst => ?_⟩
  · by_cases hop : badOpcode s.build w
    · rw [decide_eq_true (.inl hop), if_pos hop]
      exact ⟨_, exec_of_illegalOpcode (verdict_of_badOpcode hop), rfl, rfl⟩
    rw [if_neg hop]
    by_cases hoperand : badOperand s.build w
    · rw [decide_eq_true (.inr (.inl hoperand)), if_pos hoperand]
      exact ⟨_, exec_of_badOperand hop hoperand, rfl, rfl⟩
    rw [if_neg hoperand]
    by_cases hcode : missingCode s w
    · rw [decide_eq_true (.inr (.inr hcode)), if_pos hcode]
      exact ⟨_, exec_of_missingCode hoperand hcode, rfl, rfl⟩
    rw [if_neg hcode, decide_eq_false (not_or.mpr ⟨hop, not_or.mpr ⟨hoperand, hcode⟩⟩), ← hrun]
    exact exec_keeps_flags_of_no_fault hop hoperand hcode
  · obtain ⟨later, hlater⟩ := List.head?_eq_some_iff.mp hrst
    exact ⟨_, step_of_reset hlater, rfl, rfl, rfl⟩

/-! #### Reset, the halt, and the way out of it (R135 to R137, R150, R151) -/

/-- Settles O2: the reset line is looked at first, and `applyReset` writes these values. -/
theorem resetOverridesCommandAndHalt : Obligations.ResetOverridesCommandAndHalt :=
  fun _ _ hrst => step_of_reset hrst

/-- Settles O3: reset leaves the block running, with the line's next sample low and the record still presented. -/
theorem afterResetTheNextRecordRuns : Obligations.AfterResetTheNextRecordRuns := by
  intro s later w ws hrst hlow hcmd
  have hstep := stepRunsTheDecodedInstruction { s.applyReset with rst := later } w ws rfl hlow hcmd
  rw [exec_eq] at hstep
  exact ⟨_, exec_eq _ _, (run_next (step_of_reset hrst) 1).trans (run_next hstep 0)⟩

/-- Settles O4: a halted block with reset low stops or waits, by whether a later sample of the reset line is 1. -/
theorem haltedBlockAcceptsNothing : Obligations.HaltedBlockAcceptsNothing := by
  intro s herr hlow
  have hcoming : s.rst.tail.any id = true ↔ true ∈ s.rst.tail := by simp
  rw [step, next_of_resetLow hlow, if_pos herr]
  refine ⟨fun hnone => ?_, fun hsome => ?_⟩
  · rw [if_neg (mt hcoming.mp hnone)]
  · rw [if_pos (hcoming.mpr hsome)]

end Sys2Proof.Machine

/-! ### The statements of the reset and hazards family (spec/70_reset_and_hazards.md): the bytes that cross the pins and the
steps that an edge runs -/

namespace Sys2Proof.Machine

section Pins

variable (ch : PinChoice) (inp : PinInputs) {ready : Bool} {p : PinState}

/-! #### An edge with and without reset (R150, R161) -/

theorem PinState.edge_of_reset (h : inp.rst = true) : p.edge ch inp = p.applyReset := if_pos h

theorem PinState.edge_of_no_reset (h : inp.rst = false) :
    p.edge ch inp = ((p.transfer inp).work ch inp (p.cmdReady ch)).offer ch := if_neg (Bool.eq_false_iff.mp h)

/-! #### The invariant of the pins, one lemma per part of an edge (R161 to R163) -/

theorem PinState.pending_eq_nil_of_not_busy (h : p.busy = false) : p.pending = [] := by
  simp only [PinState.busy, Bool.or_eq_false_iff, Bool.not_eq_false', List.isEmpty_iff] at h
  exact h.2

/-- With `busy` at 0 no byte waits, so all of `OUT` has been transferred. -/
theorem PinState.Inv.sent_eq_out (h : p.Inv) (hbusy : p.busy = false) : p.sent = p.core.out := by
  obtain ⟨hout, -, -⟩ := h
  rwa [PinState.pending_eq_nil_of_not_busy hbusy, List.append_nil] at hout

/-- Reset keeps `OUT` (R150), and an idle block has no bytes for it to discard (R163). -/
theorem PinState.Inv.applyReset (h : p.Inv) (hbusy : p.busy = false) : p.applyReset.Inv :=
  ⟨(List.append_nil p.sent).trans (h.sent_eq_out hbusy), nofun, fun _ => rfl⟩

/-- A transfer moves the oldest waiting byte to the end of what the sink received, and lowers the offer. -/
theorem PinState.Inv.transfer (h : p.Inv) : (p.transfer inp).Inv := by
  obtain ⟨hout, hoffer, hhalt⟩ := h
  unfold PinState.transfer
  split
  · have hmoved : (p.sent ++ p.pending.take 1) ++ p.pending.drop 1 = p.core.out := by
      rw [List.append_assoc, List.take_append_drop, hout]
    exact ⟨hmoved, nofun, hhalt⟩
  · exact ⟨hout, hoffer, hhalt⟩

theorem PinState.transfer_sent_prefix (p : PinState) : p.sent <+: (p.transfer inp).sent := by
  unfold PinState.transfer
  split
  · exact List.prefix_append _ _
  · exact List.prefix_rfl

/-- A record is accepted only while the block runs. -/
theorem PinState.Inv.accept (h : p.Inv) (hrun : ready = true → p.core.err = false) : (p.accept ready inp).Inv := by
  obtain ⟨hout, hoffer, hhalt⟩ := h
  unfold PinState.accept
  split
  · rename_i haccept
    obtain ⟨-, hready⟩ := Bool.and_eq_true_iff.mp haccept
    exact ⟨hout, hoffer, fun herr => absurd herr (Bool.eq_false_iff.mp (hrun hready))⟩
  · exact ⟨hout, hoffer, hhalt⟩

/-- A step only appends to `OUT`, and what it appends goes behind the bytes that wait. -/
theorem PinState.Inv.finish (h : p.Inv) : (p.finish ch).Inv := by
  obtain e | ⟨w, t, -, hstep, e⟩ := PinState.finish_cases ch p
  · rwa [e]
  · obtain ⟨hout, hoffer, -⟩ := h
    obtain ⟨new, hnew⟩ : p.core.out <+: t.out := outputOnlyGrows { p.core with cmd := [w], rst := [] } t hstep
    have happended : p.sent ++ (p.pending ++ t.out.drop p.core.out.length) = t.out := by
      rw [← List.append_assoc, hout, ← hnew, List.drop_left]
    rw [e]
    exact ⟨happended, fun hvalid => List.append_ne_nil_of_left_ne_nil (hoffer hvalid) _, fun _ => rfl⟩

theorem PinState.Inv.offer (h : p.Inv) : (p.offer ch).Inv := by
  obtain ⟨hout, hoffer, hhalt⟩ := h
  unfold PinState.offer
  split
  · rename_i hraise
    have hwaiting : p.pending ≠ [] := by simpa using (Bool.and_eq_true_iff.mp hraise).2
    exact ⟨hout, fun _ => hwaiting, hhalt⟩
  · exact ⟨hout, hoffer, hhalt⟩

/-- The record accepted before or after finishing is accepted by a block that runs at that moment. -/
theorem PinState.Inv.work (h : p.Inv)
    (hrun : ready = true → p.core.err = false ∧ (p.finish ch).core.err = false) : (p.work ch inp ready).Inv := by
  unfold PinState.work
  split
  · exact (h.accept inp fun hready => (hrun hready).1).finish ch
  · exact (h.finish ch).accept inp fun hready => (hrun hready).2

/-- An edge keeps the invariant while the host does not reset a busy block (R163). -/
theorem PinState.Inv.edge (h : p.Inv) (hhost : inp.rst = true → p.busy = false) : (p.edge ch inp).Inv := by
  cases hrst : inp.rst
  case true =>
    rw [PinState.edge_of_reset ch inp hrst]
    exact h.applyReset (hhost hrst)
  case false =>
    have hwork := (h.transfer inp).work ch inp (ready := p.cmdReady ch) fun hready => by
      rw [PinState.finish_transfer_core, PinState.transfer_core]
      exact PinState.cmdReady_running ch p hready
    rw [PinState.edge_of_no_reset ch inp hrst]
    exact hwork.offer ch

theorem PinState.reset_inv : PinState.reset.Inv := ⟨rfl, nofun, fun _ => rfl⟩

/-! #### The bytes transferred are never taken back -/

theorem PinState.finish_sent (p : PinState) : (p.finish ch).sent = p.sent := by
  rcases PinState.finish_cases ch p with e | ⟨w, t, -, -, e⟩ <;> rw [e]

theorem PinState.work_sent (p : PinState) : (p.work ch inp ready).sent = p.sent := by
  unfold PinState.work
  split
  · rw [PinState.finish_sent, PinState.accept_sent]
  · rw [PinState.accept_sent, PinState.finish_sent]

theorem PinState.edge_sent_prefix (p : PinState) : p.sent <+: (p.edge ch inp).sent := by
  cases hrst : inp.rst
  case true =>
    rw [PinState.edge_of_reset ch inp hrst]
    exact List.prefix_rfl
  case false =>
    rw [PinState.edge_of_no_reset ch inp hrst, PinState.offer_sent, PinState.work_sent]
    exact PinState.transfer_sent_prefix inp p

end Pins

/-- Settles O54: every part of an edge keeps the invariant of the pins, which with nothing waiting says that the bytes
transferred are `OUT`. The shape of the pin state is the model's (notes/assumptions/14.md, 20.md). -/
theorem pinsDeliverTheOutputInOrder : Obligations.PinsDeliverTheOutputInOrder :=
  ⟨fun ch inp p hp hhost => ⟨hp.edge ch inp hhost, PinState.edge_sent_prefix ch inp p⟩, PinState.reset_inv,
    fun _ hp hbusy => hp.sent_eq_out hbusy⟩

/-- Settles O55: with reset an edge is `applyReset`; without, the transfer and the offer leave the block to the work between
them, which is at most one step (`PinState.work_core`). The shape of the pin state is the model's (notes/assumptions/14.md,
20.md). -/
theorem pinsRunOneTransactionAtATime : Obligations.PinsRunOneTransactionAtATime := by
  refine fun ch inp p => ⟨fun hrst => ?_, fun hrst => ?_⟩
  · rw [PinState.edge_of_reset ch inp hrst]
    exact ⟨rfl, rfl⟩
  · have hwork := PinState.work_core ch inp (p.cmdReady ch) (p.transfer inp)
    rw [PinState.transfer_core, PinState.transfer_inflight] at hwork
    rwa [PinState.edge_of_no_reset ch inp hrst, PinState.offer_core]

end Sys2Proof.Machine
